-- ==== Sys2Proof/Word.lean ====
section
/-! DEFINITION. The word and byte types (00_scope.md R7): plain bit vectors with their own wrapping arithmetic. -/

namespace Sys2Proof

/-- A 16-bit unsigned value: register contents, addresses and memory words (R7). `+` and `-` are modulo 2^16. -/
abbrev Word := BitVec 16

/-- An 8-bit character or image byte (R9, R36, R252). -/
abbrev Byte := BitVec 8

/-- The number of a general register: value i names Ri (R22, R84). -/
abbrev Reg := Fin 8

end Sys2Proof
end

