-- ==== Sys2Proof/Machine/Params.lean ====
section
/-! DEFINITION. The implementation parameters of 00_scope.md R5 that have a value, and the values the model names at reset.
They stand here and not in Config.lean so that a test that shows one wrong can be answered. A parameter whose value the
spec states from general knowledge is marked UNVERIFIED and logged (log 4). -/

namespace Sys2Proof

/-- START_PC (R5, R26). -/
def Config.startPc : Word := 0x3000

/-- COND encoding of Positive (R5, R27). -/
def Config.condPositive : Word := 1

/-- COND encoding of Zero (R5, R27). -/
def Config.condZero : Word := 2

/-- COND encoding of Negative (R5, R27). -/
def Config.condNegative : Word := 4

/-- KBSR_ADDR (R5, R60; 92 D7). UNVERIFIED: the spec states it from general knowledge; unsafe if wrong: log 4. -/
def Config.kbsrAddr : Word := 0xFE00

/-- KBDR_ADDR (R5, R60; 92 D7). UNVERIFIED: the spec states it from general knowledge; unsafe if wrong: log 4. -/
def Config.kbdrAddr : Word := 0xFE02

/-- The status word after a poll that found a byte: bit 15 set, the rest clear (R53; 92 D8). -/
def Config.kbsrReady : Word := 0x8000

/-- The status word after a poll that found none (R53). -/
def Config.kbsrNotReady : Word := 0x0000

/-- TRAP_GETC (R5, R180; 92 D5). UNVERIFIED: the spec states it from general knowledge; unsafe if wrong: log 4. -/
def Config.trapGetc : BitVec 8 := 0x20

/-- TRAP_OUT (R5, R180; 92 D5). UNVERIFIED, as TRAP_GETC: log 4. -/
def Config.trapOut : BitVec 8 := 0x21

/-- TRAP_PUTS (R5, R180; 92 D5). UNVERIFIED, as TRAP_GETC: log 4. -/
def Config.trapPuts : BitVec 8 := 0x22

/-- TRAP_IN (R5, R180; 92 D5). UNVERIFIED, as TRAP_GETC: log 4. -/
def Config.trapIn : BitVec 8 := 0x23

/-- TRAP_PUTSP (R5, R180; 92 D5). UNVERIFIED, as TRAP_GETC: log 4. -/
def Config.trapPutsp : BitVec 8 := 0x24

/-- TRAP_HALT (R5, R180; 92 D5). UNVERIFIED, as TRAP_GETC: log 4. -/
def Config.trapHalt : BitVec 8 := 0x25

/-- AND_SETS_FLAGS: false for this hardware (R5, R112; 90 C1, 92 D17). -/
def Config.andSetsFlags : Bool := false

/-- JSRR_BASE_BEFORE_LINK: false for this hardware (R5, R134; 92 D16). -/
def Config.jsrrBaseBeforeLink : Bool := false

/-- What a memory word that nothing has written reads as: memory is created zero-filled (R34, R250). -/
def Config.memUnlisted : Word := 0x0000

/-- GPR_INIT at `State.reset`. DESIGN CHOICE, unsafe: the spec gives no reset value for R0 to R7 and leaves it a
parameter (R23; 92 D13). `State.construct` takes it as an argument: log 2. -/
def Config.gprInit : Vector Word 8 := #v[0, 0, 0, 0, 0, 0, 0, 0]

/-- The COUNT slot at `State.reset`. DESIGN CHOICE, unsafe in form only: no value is stated and nothing reads it (R31; 92 D14): log 3. -/
def Config.countInit : Word := 0

end Sys2Proof
end

