-- ==== Sys2Proof/Config.lean ====
section
/-! DEFINITION. The free values: what the spec leaves OPEN and the model does not choose (00_scope.md R5). The parameters
with a value are in Machine/Params.lean. -/

namespace Sys2Proof

/-- IN_PROMPT: the bytes IN writes before it reads. A free value with no body (R5, R186; 92 D18): log 9, safe. -/
opaque Config.inPrompt : List Byte

/-- HALT_NOTICE: the bytes HALT writes. A free value with no body (R5, R188; 92 D19): log 9, safe. -/
opaque Config.haltNotice : List Byte

/-- ILLEGAL_DIAG: the text of the illegal-opcode diagnostic. A free value with no body (R5, R212; 92 D20): log 9, safe. -/
opaque Config.illegalDiag : List Byte

/-- The byte that the host of `State.reset` answers with. A free value with no body: the spec leaves the input to the host
(R36; 92 D9): log 7. -/
opaque Config.hostByte : Byte

end Sys2Proof
end

