-- ==== Sys2Proof/Syntax.lean ====
section
/-! DEFINITION. The instructions: one constructor per row of spec/opcode_table.json (30_encoding.md R82, R83, R90).
Fields are held as the encoding gives them; bits marked unused are not kept (R87). -/

namespace Sys2Proof

/-- One constructor per row of spec/opcode_table.json. RET and the six trap names are rows of their own there, with
`alias_of`; each has its constructor here, and JMP and TRAP stand for the remaining words of their formats (log 10). -/
inductive Instr where
  /-- ADD, register mode (R110). -/
  | addReg (dr sr1 sr2 : Reg)
  /-- ADD, immediate mode (R111). -/
  | addImm (dr sr1 : Reg) (imm5 : BitVec 5)
  /-- AND, register mode (R112). -/
  | andReg (dr sr1 sr2 : Reg)
  /-- AND, immediate mode (R113). -/
  | andImm (dr sr1 : Reg) (imm5 : BitVec 5)
  /-- NOT (R114). -/
  | not (dr sr : Reg)
  /-- BR, with its n, z and p bits (R130). -/
  | br (n z p : Bool) (pcOffset9 : BitVec 9)
  /-- JMP, any base but R7 (R131). -/
  | jmp (baseR : Reg)
  /-- RET: JMP with BaseR = 7 (R132). -/
  | ret
  /-- JSR (R133). -/
  | jsr (pcOffset11 : BitVec 11)
  /-- JSRR (R134). -/
  | jsrr (baseR : Reg)
  /-- LD (R150). -/
  | ld (dr : Reg) (pcOffset9 : BitVec 9)
  /-- LDI (R151). -/
  | ldi (dr : Reg) (pcOffset9 : BitVec 9)
  /-- LDR (R152). -/
  | ldr (dr baseR : Reg) (offset6 : BitVec 6)
  /-- LEA (R153). -/
  | lea (dr : Reg) (pcOffset9 : BitVec 9)
  /-- ST (R154). -/
  | st (sr : Reg) (pcOffset9 : BitVec 9)
  /-- STI (R155). -/
  | sti (sr : Reg) (pcOffset9 : BitVec 9)
  /-- STR (R156). -/
  | str (sr baseR : Reg) (offset6 : BitVec 6)
  /-- TRAP with a vector that is none of the six (R180, R189). -/
  | trap (trapvect8 : BitVec 8)
  /-- TRAP with vector TRAP_GETC (R183). -/
  | getc
  /-- TRAP with vector TRAP_OUT (R184). -/
  | out
  /-- TRAP with vector TRAP_PUTS (R185). -/
  | puts
  /-- TRAP with vector TRAP_IN (R186). -/
  | inChar
  /-- TRAP with vector TRAP_PUTSP (R187). -/
  | putsp
  /-- TRAP with vector TRAP_HALT (R188). -/
  | halt
  /-- RTI, opcode 8: illegal, stops (R210). -/
  | rti
  /-- The reserved opcode 13: illegal, stops (R211). -/
  | res
  deriving DecidableEq, Repr

end Sys2Proof
end

