-- ==== Sys2Proof/WellFormed.lean ====
section
/-! DEFINITION. Which terms of `Instr` are some word's reading. Every field is as wide as its encoding, so only the two
rows that other rows specialise need a check: JMP with base R7 is RET, and TRAP with one of the six vectors is that
routine's row (30_encoding.md R90; 43_trap.md R182). -/

namespace Sys2Proof

/-- One of the six vectors that select a routine (R180, R182). -/
def isRoutineVector (v : BitVec 8) : Bool :=
  v == Config.trapGetc || v == Config.trapOut || v == Config.trapPuts || v == Config.trapIn ||
    v == Config.trapPutsp || v == Config.trapHalt

/-- The base register of RET (R132). -/
def retBase : Reg := 7

/-- An instruction that some word decodes to. -/
def Instr.wellFormed : Instr → Bool
  | .addReg _ _ _ => true
  | .addImm _ _ _ => true
  | .andReg _ _ _ => true
  | .andImm _ _ _ => true
  | .not _ _ => true
  | .br _ _ _ _ => true
  | .jmp baseR => baseR != retBase
  | .ret => true
  | .jsr _ => true
  | .jsrr _ => true
  | .ld _ _ => true
  | .ldi _ _ => true
  | .ldr _ _ _ => true
  | .lea _ _ => true
  | .st _ _ => true
  | .sti _ _ => true
  | .str _ _ _ => true
  | .trap v => !isRoutineVector v
  | .getc => true
  | .out => true
  | .puts => true
  | .inChar => true
  | .putsp => true
  | .halt => true
  | .rti => true
  | .res => true

end Sys2Proof
end

