-- ==== Sys2Proof/Decode.lean ====
section
/-! DEFINITION. The decoder, the encoder and the table of used bits (30_encoding.md R80 to R95). The decoder is total:
every 16-bit word is some instruction (R90), so it rejects nothing; the two illegal opcodes decode to `rti` and `res` (R88). -/

namespace Sys2Proof

/-- The opcode, ir[15:12] (R81). -/
def opcodeField (ir : Word) : BitVec 4 := ir.extractLsb' 12 4

/-- The register field whose lowest bit is `lo` (R84). -/
def regField (ir : Word) (lo : Nat) : Reg := (ir.extractLsb' lo 3).toFin

/-- imm5, ir[4:0] (R85). -/
def imm5Field (ir : Word) : BitVec 5 := ir.extractLsb' 0 5

/-- offset6, ir[5:0] (R85). -/
def offset6Field (ir : Word) : BitVec 6 := ir.extractLsb' 0 6

/-- PCoffset9, ir[8:0] (R85). -/
def pcOffset9Field (ir : Word) : BitVec 9 := ir.extractLsb' 0 9

/-- PCoffset11, ir[10:0] (R85). -/
def pcOffset11Field (ir : Word) : BitVec 11 := ir.extractLsb' 0 11

/-- trapvect8, ir[7:0] (R86). -/
def trapvect8Field (ir : Word) : BitVec 8 := ir.extractLsb' 0 8

/-- The row a TRAP vector selects (R182): one of the six routines, or TRAP itself for the other 250 vectors. -/
def decodeTrap (v : BitVec 8) : Instr :=
  if v = Config.trapGetc then .getc
  else if v = Config.trapOut then .out
  else if v = Config.trapPuts then .puts
  else if v = Config.trapIn then .inChar
  else if v = Config.trapPutsp then .putsp
  else if v = Config.trapHalt then .halt
  else .trap v

/-- The row a JMP base selects: RET when BaseR = 7 (R90, R132). -/
def decodeJmp (baseR : Reg) : Instr := if baseR = retBase then .ret else .jmp baseR

/-- The decoder: the opcode map of R82 with the formats of R83. -/
def decode (ir : Word) : Instr :=
  match (opcodeField ir).toNat with
  | 0 => .br (ir.getLsbD 11) (ir.getLsbD 10) (ir.getLsbD 9) (pcOffset9Field ir)
  | 1 =>
    if ir.getLsbD 5 then .addImm (regField ir 9) (regField ir 6) (imm5Field ir)
    else .addReg (regField ir 9) (regField ir 6) (regField ir 0)
  | 2 => .ld (regField ir 9) (pcOffset9Field ir)
  | 3 => .st (regField ir 9) (pcOffset9Field ir)
  | 4 => if ir.getLsbD 11 then .jsr (pcOffset11Field ir) else .jsrr (regField ir 6)
  | 5 =>
    if ir.getLsbD 5 then .andImm (regField ir 9) (regField ir 6) (imm5Field ir)
    else .andReg (regField ir 9) (regField ir 6) (regField ir 0)
  | 6 => .ldr (regField ir 9) (regField ir 6) (offset6Field ir)
  | 7 => .str (regField ir 9) (regField ir 6) (offset6Field ir)
  | 8 => .rti
  | 9 => .not (regField ir 9) (regField ir 6)
  | 10 => .ldi (regField ir 9) (pcOffset9Field ir)
  | 11 => .sti (regField ir 9) (pcOffset9Field ir)
  | 12 => decodeJmp (regField ir 6)
  | 13 => .res
  | 14 => .lea (regField ir 9) (pcOffset9Field ir)
  | _ => decodeTrap (trapvect8Field ir)

/-- What the host asks: the instruction read from the table's numbering of bits. Every row is one 16-bit word (R80), so
the word is those bits and zeros above them. -/
def decodeTableWord (nbits w : Nat) : Option Instr := some (decode (BitVec.ofNat 16 (w % 2 ^ nbits)))

/-- A register number as its 3-bit field (R84). -/
def regBits (r : Reg) : BitVec 3 := BitVec.ofFin r

/-- A flag bit as its 1-bit field (R83, format BR). -/
def flagBit (b : Bool) : BitVec 1 := BitVec.ofBool b

/-- The TRAP word of a vector, unused bits 0 (R83, R95). -/
def trapWord (v : BitVec 8) : Word := 0b1111#4 ++ 0b0000#4 ++ v

/-- The encoder: the formats of R83 with 0 in every unused bit (R95). -/
def encode : Instr → Word
  | .addReg dr sr1 sr2 => 0b0001#4 ++ regBits dr ++ regBits sr1 ++ 0b000#3 ++ regBits sr2
  | .addImm dr sr1 imm5 => 0b0001#4 ++ regBits dr ++ regBits sr1 ++ 0b1#1 ++ imm5
  | .andReg dr sr1 sr2 => 0b0101#4 ++ regBits dr ++ regBits sr1 ++ 0b000#3 ++ regBits sr2
  | .andImm dr sr1 imm5 => 0b0101#4 ++ regBits dr ++ regBits sr1 ++ 0b1#1 ++ imm5
  | .not dr sr => 0b1001#4 ++ regBits dr ++ regBits sr ++ 0b000000#6
  | .br n z p off => 0b0000#4 ++ flagBit n ++ flagBit z ++ flagBit p ++ off
  | .jmp baseR => 0b1100#4 ++ 0b000#3 ++ regBits baseR ++ 0b000000#6
  | .ret => 0b1100#4 ++ 0b000#3 ++ regBits retBase ++ 0b000000#6
  | .jsr off => 0b0100#4 ++ 0b1#1 ++ off
  | .jsrr baseR => 0b0100#4 ++ 0b0#1 ++ 0b00#2 ++ regBits baseR ++ 0b000000#6
  | .ld dr off => 0b0010#4 ++ regBits dr ++ off
  | .ldi dr off => 0b1010#4 ++ regBits dr ++ off
  | .ldr dr baseR off => 0b0110#4 ++ regBits dr ++ regBits baseR ++ off
  | .lea dr off => 0b1110#4 ++ regBits dr ++ off
  | .st sr off => 0b0011#4 ++ regBits sr ++ off
  | .sti sr off => 0b1011#4 ++ regBits sr ++ off
  | .str sr baseR off => 0b0111#4 ++ regBits sr ++ regBits baseR ++ off
  | .trap v => trapWord v
  | .getc => trapWord Config.trapGetc
  | .out => trapWord Config.trapOut
  | .puts => trapWord Config.trapPuts
  | .inChar => trapWord Config.trapIn
  | .putsp => trapWord Config.trapPutsp
  | .halt => trapWord Config.trapHalt
  | .rti => 0b1000#4 ++ 0b000000000000#12
  | .res => 0b1101#4 ++ 0b000000000000#12

/-- The bits of a word that its format reads, as a mask (R83, R87): every other bit is marked x there. -/
def usedMask (ir : Word) : Word :=
  match (opcodeField ir).toNat with
  | 1 => if ir.getLsbD 5 then 0xFFFF else 0xFFE7
  | 4 => if ir.getLsbD 11 then 0xFFFF else 0xF9C0
  | 5 => if ir.getLsbD 5 then 0xFFFF else 0xFFE7
  | 8 => 0xF000
  | 9 => 0xFFC0
  | 12 => 0xF1C0
  | 13 => 0xF000
  | 15 => 0xF0FF
  | _ => 0xFFFF

end Sys2Proof
end

