-- ==== Sys2Proof/Machine/Bits.lean ====
section
/-! DEFINITION. Sign extension, zero extension and the byte halves of a word (00_scope.md R7 to R9; 20_memory.md R58). -/

namespace Sys2Proof.Machine

/-- `sext_16(v, k)` (R8): if the top bit of the k-bit field is 1, the value OR'd with all bits above it, else the value unchanged. -/
def sext16 {k : Nat} (v : BitVec k) : Word :=
  if v.msb then v.setWidth 16 ||| (0xFFFF#16 <<< k) else v.setWidth 16

/-- `zext_16(b)` (R9; 92 D10): the upper bits are 0. -/
def zext16 (b : Byte) : Word := b.setWidth 16

/-- Bits [7:0] of a word (R58). -/
def lowByte (w : Word) : Byte := w.extractLsb' 0 8

/-- Bits [15:8] of a word (R58). -/
def highByte (w : Word) : Byte := w.extractLsb' 8 8

/-- `h ++ l`: the big-endian word of two bytes (R7, R58, R252). -/
def wordOfBytes (h l : Byte) : Word := h ++ l

end Sys2Proof.Machine
end

