-- ==== Sys2Proof/Machine/State.lean ====
section
/-! DEFINITION. The machine's state as plain data, its stop reasons and its state after reset (10_state.md;
70_reset_and_hazards.md R250). -/

namespace Sys2Proof.Machine

/-- Why a step can stop with no next state: the spec's stuck cases. None of them is a halt of the hardware, which is a
next state with `running = false` (R32, R33). -/
inductive Fault where
  /-- Raised by `step` alone, on a machine whose `running` is false: "the core has no step" (R92). Safe: the hardware goes nowhere either. -/
  | halted
  /-- Raised by GETC and IN when the input source never supplies a byte: the step never completes (R183, R186, R243;
  93 I8). Safe: no next state is claimed. -/
  | noInput
  /-- Raised by PUTS when its string never ends: the routine does not return (R185; 93 I9). Safe: no next state is
  claimed. PUTSP names it too, but never reaches it (log 11). -/
  | endlessString
  deriving DecidableEq, Repr

/-- Why a step has no meaning in the model. -/
inductive Refusal where
  /-- Raised by an arm of `exec` whose instruction has no meaning yet; no arm raises it. Safe: nothing is claimed. -/
  | notModelled (mnemonic : String)
  deriving DecidableEq, Repr

/-- The reasons of R33 and R221 for which the core stops. -/
inductive HaltReason where
  /-- Code 0: TRAP with vector TRAP_HALT, the normal end (R188). -/
  | haltTrap
  /-- Code 1: opcode 8 or 13 (R210, R211). -/
  | illegalOpcode (op : BitVec 4)
  /-- Code 2: TRAP with a vector that is none of the six (R189). -/
  | unknownTrap (v : BitVec 8)
  /-- Code 3: the output sink failed (R242). -/
  | outputError
  deriving DecidableEq, Repr

/-- One thing the input source has in store (R36; 92 D9): its next byte, or one moment at which it has none. A poll
answers `Some` at a byte and `None` at a `notYet`; a blocking read waits past every `notYet` (log 7). -/
inductive Arrival where
  | byte (b : Byte)
  | notYet
  deriving DecidableEq, Repr

/-- The events of the output sink and the terminal bracket, in one sequence (R36, R181). -/
inductive OutEvent where
  | byte (b : Byte)
  | flush
  | rawEnter
  | rawRestore
  deriving DecidableEq, Repr

/-- One memory word at its address. The addressable unit is the 16-bit word, and there are no byte addresses (R50, R58): log 1. -/
abbrev Cell := Nat × Word

/-- Memory (R34, R50): the words that differ from `Config.memUnlisted`, in strictly rising order of address. -/
abbrev Memory := List Cell

/-- Everything the spec gives the machine, and the host's side of its channels. -/
structure State where
  /-- R0 to R7 (R22). -/
  regs : Vector Word 8
  /-- The program counter (R24). -/
  pc : Word
  /-- The condition-flag register COND (R27). -/
  cond : Word
  /-- The reserved COUNT slot (R31). -/
  count : Word
  /-- False when the core is Halted (R32). -/
  running : Bool
  /-- Why `running` became false (R33). -/
  haltReason : Option HaltReason
  /-- Memory, the two keyboard words among it (R34, R39). -/
  mem : Memory
  /-- The model's own: what the input source has in store, next first (R36, R68; log 7). -/
  input : List Arrival
  /-- The model's own: what the input source answers to every request after `input` is used up (log 7). -/
  inputRest : Option Byte
  /-- The model's own: how many output calls still succeed before one fails; `none` for a sink that never fails (R240, R242; log 8). -/
  sinkLimit : Option Nat
  /-- The output trace, oldest event first (R36). -/
  output : List OutEvent
  /-- The diagnostics, oldest first, apart from the output (R36, R212). -/
  diag : List (List Byte)
  deriving DecidableEq, Repr

/-- The construction of the machine (R250, R251), for any GPR_INIT, COUNT and host: the values the spec leaves open are arguments. -/
def State.construct (gprInit : Vector Word 8) (countInit : Word) (input : List Arrival) (inputRest : Option Byte)
    (sinkLimit : Option Nat) : State where
  regs := gprInit
  pc := Config.startPc
  cond := Config.condZero
  count := countInit
  running := true
  haltReason := none
  mem := []
  input := input
  inputRest := inputRest
  sinkLimit := sinkLimit
  output := []
  diag := []

/-- The machine right after reset (R250). What the spec leaves open is named in logs 2, 3, 7 and 8: zero registers, an
input source that answers every request with one byte of unknown value, a sink that never fails. DESIGN CHOICE, unsafe:
see those logs. -/
def State.reset : State := State.construct Config.gprInit Config.countInit [] (some Config.hostByte) none

end Sys2Proof.Machine
end

