-- ==== Sys2Proof/Machine/Ops.lean ====
section
/-! DEFINITION. The named operations over memory, registers and the host's channels (00_scope.md R10; 10_state.md R36;
20_memory.md R52 to R56), the stop operation `raise`, and the fetch (30_encoding.md R91). -/

namespace Sys2Proof.Machine

/-! ### Memory -/

/-- The word listed at an address, or what an unlisted address reads as. -/
def Memory.lookup : Memory → Nat → Word
  | [], _ => Config.memUnlisted
  | (k, v) :: rest, a => if k = a then v else Memory.lookup rest a

/-- The word at an address; no side effect (R34). -/
def Memory.read (m : Memory) (a : Word) : Word := Memory.lookup m a.toNat

/-- A cell put before the first cell of a higher address. -/
def Memory.insertCell (a : Nat) (v : Word) : Memory → Memory
  | [] => [(a, v)]
  | (k, w) :: rest => if a < k then (a, v) :: (k, w) :: rest else (k, w) :: Memory.insertCell a v rest

/-- Memory without any cell at an address. -/
def Memory.erase (m : Memory) (a : Nat) : Memory := m.filter (fun c => c.1 != a)

/-- The memory after storing a word; a word equal to `Config.memUnlisted` leaves no cell. -/
def Memory.write (m : Memory) (a : Word) (v : Word) : Memory :=
  if v = Config.memUnlisted then Memory.erase m a.toNat
  else Memory.insertCell a.toNat v (Memory.erase m a.toNat)

/-- The canonical form: addresses strictly rising and inside the address space (R50), no cell that could be left out. -/
abbrev Memory.wf (m : Memory) : Prop :=
  m.Pairwise (fun c d => c.1 < d.1) ∧ ∀ c ∈ m, c.1 < 65536 ∧ c.2 ≠ Config.memUnlisted

/-! ### Registers and plain updates -/

/-- `x[i]` (R10). No register is hard-wired (R22). -/
def State.reg (s : State) (r : Reg) : Word := s.regs[r.val]

/-- `x[i] <- v` (R10). -/
def State.setReg (s : State) (r : Reg) (v : Word) : State := { s with regs := s.regs.set r.val v }

/-- `pc <- target` (R10). -/
def State.setPc (s : State) (target : Word) : State := { s with pc := target }

/-- The machine with another COND; only `setcc` (Flags.lean) calls it (R29). -/
def State.setCond (s : State) (c : Word) : State := { s with cond := c }

/-- The machine with another memory. -/
def State.setMem (s : State) (m : Memory) : State := { s with mem := m }

/-- The machine with other arrivals still to come. -/
def State.setInput (s : State) (i : List Arrival) : State := { s with input := i }

/-- The machine with another count of output calls that still succeed. -/
def State.setSinkLimit (s : State) (n : Option Nat) : State := { s with sinkLimit := n }

/-- Events appended to the output trace (R36). -/
def State.emit (s : State) (es : List OutEvent) : State := { s with output := s.output ++ es }

/-- `Diag(text)` (R10, R36, R212). -/
def State.diagnose (s : State) (text : List Byte) : State := { s with diag := s.diag ++ [text] }

/-- `raise <Reason>(info)` (R10): the core stops and records why (R32, R33). The core has no exception that saves state
and enters a handler, and no return from one (R220, R225, R226), so this is its one shared stop operation. -/
def State.raise (s : State) (r : HaltReason) : State := { s with running := false, haltReason := some r }

/-! ### The input source -/

/-- `InPoll()` (R10, R36): the next byte, or none. It never waits (log 6); which answer it gives is the host's (92 D9; log 7). -/
def inPoll (s : State) : Option Byte × State :=
  match s.input with
  | .byte b :: rest => (some b, s.setInput rest)
  | .notYet :: rest => (none, s.setInput rest)
  | [] => (s.inputRest, s)

/-- The first byte among the arrivals, with what stays in store after it. -/
def nextByte : List Arrival → Option (Byte × List Arrival)
  | [] => none
  | .byte b :: rest => some (b, rest)
  | .notYet :: rest => nextByte rest

/-- `InRead()` (R10, R36): the next byte, waiting until one exists; none at all when no byte ever comes (R243). -/
def inRead (s : State) : Option (Byte × State) :=
  match nextByte s.input with
  | some (b, rest) => some (b, s.setInput rest)
  | none => s.inputRest.map (fun b => (b, s.setInput []))

/-! ### Memory access of the core -/

/-- `Poll()`, the memory-mapped I/O controller (R53). -/
def poll (s : State) : State :=
  match inPoll s with
  | (some b, t) =>
    t.setMem ((t.mem.write Config.kbdrAddr (zext16 b)).write Config.kbsrAddr Config.kbsrReady)
  | (none, t) => t.setMem (t.mem.write Config.kbsrAddr Config.kbsrNotReady)

/-- `MemRead(addr, 1)` (R52): a read of KBSR_ADDR polls first. -/
def memRead (a : Word) (s : State) : Word × State :=
  let t := if a = Config.kbsrAddr then poll s else s
  (t.mem.read a, t)

/-- `MemWrite(addr, 1, v)` (R54): an unconditional store. -/
def memWrite (a v : Word) (s : State) : State := s.setMem (s.mem.write a v)

/-! ### The output sink -/

/-- `OutByte` for each byte in turn (R10, R36): the state after them, and whether all succeeded. At a failure the failed
byte leaves no event and the rest are not sent (R242). -/
def outBytes (bs : List Byte) (s : State) : State × Bool :=
  match s.sinkLimit with
  | none => (s.emit (bs.map .byte), true)
  | some n => ((s.emit ((bs.take n).map .byte)).setSinkLimit (some (n - bs.length)), decide (bs.length ≤ n))

/-- `OutByte(b)` (R10). -/
def outByte (b : Byte) (s : State) : State × Bool := outBytes [b] s

/-- `OutFlush()` (R10). -/
def outFlush (s : State) : State × Bool :=
  match s.sinkLimit with
  | none => (s.emit [.flush], true)
  | some 0 => (s, false)
  | some (n + 1) => ((s.emit [.flush]).setSinkLimit (some n), true)

/-- `RawEnter()` (R10, R181). -/
def rawEnter (s : State) : State := s.emit [.rawEnter]

/-- `RawRestore()` (R10, R181). -/
def rawRestore (s : State) : State := s.emit [.rawRestore]

/-! ### Fetch -/

/-- The fetch and the increment of PC (R91): the word through `MemRead`, so that a fetch at KBSR_ADDR polls (92 D11), then
PC + 1 modulo 2^16 (R25; 92 D26). -/
def fetch (s : State) : Word × State :=
  let r := memRead s.pc s
  (r.1, r.2.setPc (r.2.pc + 1))

end Sys2Proof.Machine
end

