-- ==== Sys2Proof/Machine/Flags.lean ====
section
/-! DEFINITION. The condition flags: `setcc` (10_state.md R28) and the BR test (41_control.md R130). -/

namespace Sys2Proof.Machine

/-- The COND value of a result (R28). -/
def condOf (v : Word) : Word :=
  if v = 0 then Config.condZero else if v.msb then Config.condNegative else Config.condPositive

/-- `setcc(v)` (R28). -/
def setcc (v : Word) (s : State) : State := s.setCond (condOf v)

/-- `x[DR] <- v; setcc(x[DR])`: the end of every flag-setting instruction (R28, R29). -/
def writeResult (dr : Reg) (v : Word) (s : State) : State := setcc v (s.setReg dr v)

/-- The field nzp = ir[11:9] as a word: n is 4, z is 2, p is 1 (R130). -/
def nzpMask (n z p : Bool) : Word :=
  (if n then Config.condNegative else 0) ||| (if z then Config.condZero else 0) ||| (if p then Config.condPositive else 0)

/-- `(nzp & cond) != 0` (R130). -/
def branchTaken (n z p : Bool) (s : State) : Bool := nzpMask n z p &&& s.cond != 0

end Sys2Proof.Machine
end

