-- ==== Sys2Proof/Machine/Operands.lean ====
section
/-! DEFINITION. The operand forms: immediates (30_encoding.md R85) and effective addresses (42_load_store.md R157),
each modulo 2^16. PC is the incremented one throughout (R24). -/

namespace Sys2Proof.Machine

/-- imm5, sign-extended (R85). -/
def immOperand (imm5 : BitVec 5) : Word := sext16 imm5

/-- The PC-relative address `pc + sext_16(PCoffset9, 9)` (R157, R130). -/
def pcRelAddr (s : State) (off : BitVec 9) : Word := s.pc + sext16 off

/-- The JSR target `pc + sext_16(PCoffset11, 11)` (R133). -/
def jsrTarget (s : State) (off : BitVec 11) : Word := s.pc + sext16 off

/-- The base + offset address `x[BaseR] + sext_16(offset6, 6)` (R157). -/
def baseAddr (s : State) (baseR : Reg) (off : BitVec 6) : Word := s.reg baseR + sext16 off

/-- The indirect address `MemRead(pc + sext_16(PCoffset9, 9), 1)`, which polls when the pointer stands at KBSR_ADDR (R157, R62). -/
def indirectAddr (s : State) (off : BitVec 9) : Word × State := memRead (pcRelAddr s off) s

end Sys2Proof.Machine
end

