-- ==== Sys2Proof/Machine/Control.lean ====
section
/-! DEFINITION. Control transfer: BR, JMP, RET, JSR, JSRR (41_control.md R130 to R136). PC is already incremented; no
delay slot, no fault (R135); none writes COND. -/

namespace Sys2Proof.Machine

/-- R7, which receives the return address (R22, R136). -/
def linkReg : Reg := 7

/-- `x[7] <- pc` (R133, R134). -/
def link (s : State) : State := s.setReg linkReg s.pc

/-- `pc <- x[BaseR]` (R131). -/
def jumpTo (baseR : Reg) (s : State) : State := s.setPc (s.reg baseR)

/-- BR (R130). -/
def execBr (n z p : Bool) (off : BitVec 9) (s : State) : Host.Outcome State Fault Refusal :=
  .next (if branchTaken n z p s then s.setPc (pcRelAddr s off) else s)

/-- JMP (R131). -/
def execJmp (baseR : Reg) (s : State) : Host.Outcome State Fault Refusal := .next (jumpTo baseR s)

/-- RET, the JMP handler with BaseR = 7 (R132). -/
def execRet (s : State) : Host.Outcome State Fault Refusal := .next (jumpTo retBase s)

/-- JSR (R133). -/
def execJsr (off : BitVec 11) (s : State) : Host.Outcome State Fault Refusal :=
  .next ((link s).setPc (jsrTarget s off))

/-- JSRR (R134): the link is written first, so that `JSRR R7` goes to the incremented PC, unless JSRR_BASE_BEFORE_LINK. -/
def execJsrr (baseR : Reg) (s : State) : Host.Outcome State Fault Refusal :=
  .next (if Config.jsrrBaseBeforeLink then (link s).setPc (s.reg baseR) else jumpTo baseR (link s))

end Sys2Proof.Machine
end

