-- ==== Sys2Proof/Machine/Illegal.lean ====
section
/-! DEFINITION. The two illegal opcodes (44_reserved.md R210 to R212): a diagnostic, then the stop; no register or memory word is written. -/

namespace Sys2Proof.Machine

/-- `Diag(ILLEGAL_DIAG); raise IllegalOpcode(op)` (R210 to R212). -/
def illegalOpcode (op : BitVec 4) (s : State) : State := (s.diagnose Config.illegalDiag).raise (.illegalOpcode op)

/-- RTI, opcode 8 (R210). -/
def execRti (s : State) : Host.Outcome State Fault Refusal := .next (illegalOpcode 8 s)

/-- The reserved opcode 13 (R211). -/
def execRes (s : State) : Host.Outcome State Fault Refusal := .next (illegalOpcode 13 s)

end Sys2Proof.Machine
end

