-- ==== Sys2Proof/Machine/LoadStore.lean ====
section
/-! DEFINITION. Loads, LEA and stores (42_load_store.md R150 to R157). Every read is `MemRead`, every write `MemWrite`; none can fault. -/

namespace Sys2Proof.Machine

/-- `x[DR] <- MemRead(ea, 1); setcc(x[DR])`: the end of every load (R150 to R152). -/
def loadFrom (dr : Reg) (ea : Word) (s : State) : State :=
  let r := memRead ea s
  writeResult dr r.1 r.2

/-- `MemWrite(ea, 1, x[SR])`: the end of every store (R154 to R156). -/
def storeTo (sr : Reg) (ea : Word) (s : State) : State := memWrite ea (s.reg sr) s

/-- LD (R150). -/
def execLd (dr : Reg) (off : BitVec 9) (s : State) : Host.Outcome State Fault Refusal :=
  .next (loadFrom dr (pcRelAddr s off) s)

/-- LDI (R151): the pointer read, then the data read. -/
def execLdi (dr : Reg) (off : BitVec 9) (s : State) : Host.Outcome State Fault Refusal :=
  let p := indirectAddr s off
  .next (loadFrom dr p.1 p.2)

/-- LDR (R152). -/
def execLdr (dr baseR : Reg) (off : BitVec 6) (s : State) : Host.Outcome State Fault Refusal :=
  .next (loadFrom dr (baseAddr s baseR off) s)

/-- LEA (R153): no memory access. -/
def execLea (dr : Reg) (off : BitVec 9) (s : State) : Host.Outcome State Fault Refusal :=
  .next (writeResult dr (pcRelAddr s off) s)

/-- ST (R154). -/
def execSt (sr : Reg) (off : BitVec 9) (s : State) : Host.Outcome State Fault Refusal :=
  .next (storeTo sr (pcRelAddr s off) s)

/-- STI (R155): the pointer read polls when it stands at KBSR_ADDR. -/
def execSti (sr : Reg) (off : BitVec 9) (s : State) : Host.Outcome State Fault Refusal :=
  let p := indirectAddr s off
  .next (storeTo sr p.1 p.2)

/-- STR (R156). -/
def execStr (sr baseR : Reg) (off : BitVec 6) (s : State) : Host.Outcome State Fault Refusal :=
  .next (storeTo sr (baseAddr s baseR off) s)

end Sys2Proof.Machine
end

