-- ==== Sys2Proof/Machine/Operate.lean ====
section
/-! DEFINITION. The operate instructions ADD, AND, NOT (40_operate.md R110 to R115). Sources are read before the destination is written. -/

namespace Sys2Proof.Machine

/-- The end of AND: the destination, and the flags only where AND_SETS_FLAGS (R112, R113; 90 C1). -/
def writeAnd (dr : Reg) (v : Word) (s : State) : State :=
  if Config.andSetsFlags then writeResult dr v s else s.setReg dr v

/-- ADD, register mode (R110). -/
def execAddReg (dr sr1 sr2 : Reg) (s : State) : Host.Outcome State Fault Refusal :=
  .next (writeResult dr (s.reg sr1 + s.reg sr2) s)

/-- ADD, immediate mode (R111). -/
def execAddImm (dr sr1 : Reg) (imm5 : BitVec 5) (s : State) : Host.Outcome State Fault Refusal :=
  .next (writeResult dr (s.reg sr1 + immOperand imm5) s)

/-- AND, register mode (R112). -/
def execAndReg (dr sr1 sr2 : Reg) (s : State) : Host.Outcome State Fault Refusal :=
  .next (writeAnd dr (s.reg sr1 &&& s.reg sr2) s)

/-- AND, immediate mode (R113). -/
def execAndImm (dr sr1 : Reg) (imm5 : BitVec 5) (s : State) : Host.Outcome State Fault Refusal :=
  .next (writeAnd dr (s.reg sr1 &&& immOperand imm5) s)

/-- NOT (R114). -/
def execNot (dr sr : Reg) (s : State) : Host.Outcome State Fault Refusal :=
  .next (writeResult dr (~~~ s.reg sr) s)

end Sys2Proof.Machine
end

