-- ==== Sys2Proof/Machine/Trap.lean ====
section
/-! DEFINITION. The TRAP dispatcher and the six I/O service routines (43_trap.md R180 to R191). A routine is carried out
by the core inside the TRAP instruction's step; it saves nothing and returns to the incremented PC (R190). -/

namespace Sys2Proof.Machine

/-- What follows an output call: the rest of the routine, or, when the call failed, the stop of R242. -/
def afterOutput (r : State × Bool) (rest : State → Host.Outcome State Fault Refusal) : Host.Outcome State Fault Refusal :=
  if r.2 then rest r.1 else .next (r.1.raise .outputError)

/-- `b <- InRead()` and the rest of the routine; stuck when no byte ever comes (R243; 92 D23). -/
def afterInput (s : State) (rest : Byte → State → Host.Outcome State Fault Refusal) : Host.Outcome State Fault Refusal :=
  match inRead s with
  | some (b, t) => rest b t
  | none => .fault .noInput

/-- R0, the operand or result of the routines (R22). -/
def trapReg : Reg := 0

/-- How many words a string routine may read before it is known never to end. Every 65536 reads pass KBSR_ADDR once and use
up one arrival; after the last one two more passes see a memory that no longer changes; a sink that fails ends the loop
at its limit (log 11). -/
def stringFuel (s : State) : Nat := 65536 * (s.input.length + 3) + s.sinkLimit.getD 0

/-- GETC (R183). -/
def getcRoutine (s : State) : Host.Outcome State Fault Refusal :=
  afterInput s fun b t => .next (writeResult trapReg (zext16 b) t)

/-- OUT (R184). -/
def outRoutine (s : State) : Host.Outcome State Fault Refusal :=
  afterOutput (outByte (lowByte (s.reg trapReg)) s) .next

/-- The loop of PUTS (R185) from one address on, the number of reads bounded by the first argument. -/
def putsLoop : Nat → Word → State → Host.Outcome State Fault Refusal
  | 0, _, _ => .fault .endlessString
  | n + 1, a, s =>
    let r := memRead a s
    if r.1 = 0 then .next r.2
    else afterOutput (outByte (lowByte r.1) r.2) fun t => putsLoop n (a + 1) t

/-- PUTS (R185). -/
def putsRoutine (s : State) : Host.Outcome State Fault Refusal := putsLoop (stringFuel s) (s.reg trapReg) s

/-- IN (R186): the prompt, the read, the echo, then R0 and the flags. -/
def inRoutine (s : State) : Host.Outcome State Fault Refusal :=
  afterOutput (outBytes Config.inPrompt s) fun t =>
    afterInput t fun b u =>
      afterOutput (outByte b u) fun v => .next (writeResult trapReg (zext16 b) v)

/-- The loop of PUTSP (R187) from one address on: the low byte, then the high byte, stopping at the first zero byte. -/
def putspLoop : Nat → Word → State → Host.Outcome State Fault Refusal
  | 0, _, _ => .fault .endlessString
  | n + 1, a, s =>
    let r := memRead a s
    if lowByte r.1 = 0 then .next r.2
    else afterOutput (outByte (lowByte r.1) r.2) fun t =>
      if highByte r.1 = 0 then .next t
      else afterOutput (outByte (highByte r.1) t) fun u => putspLoop n (a + 1) u

/-- PUTSP (R187). -/
def putspRoutine (s : State) : Host.Outcome State Fault Refusal := putspLoop (stringFuel s) (s.reg trapReg) s

/-- HALT (R188): the notice, the flush, the stop. -/
def haltRoutine (s : State) : Host.Outcome State Fault Refusal :=
  afterOutput (outBytes Config.haltNotice s) fun t =>
    afterOutput (outFlush t) fun u => .next (u.raise .haltTrap)

/-- An unknown vector stops the core (R189; 92 D6). -/
def unknownRoutine (v : BitVec 8) (s : State) : Host.Outcome State Fault Refusal := .next (s.raise (.unknownTrap v))

/-- The dispatch on the vector (R180, R182). -/
def trapRoutine (v : BitVec 8) (s : State) : Host.Outcome State Fault Refusal :=
  if v = Config.trapGetc then getcRoutine s
  else if v = Config.trapOut then outRoutine s
  else if v = Config.trapPuts then putsRoutine s
  else if v = Config.trapIn then inRoutine s
  else if v = Config.trapPutsp then putspRoutine s
  else if v = Config.trapHalt then haltRoutine s
  else unknownRoutine v s

/-- The terminal bracket around a routine: RawEnter before its first action, RawRestore after its last, in every outcome (R181). -/
def withRawMode (routine : State → Host.Outcome State Fault Refusal) (s : State) : Host.Outcome State Fault Refusal :=
  match routine (rawEnter s) with
  | .next t => .next (rawRestore t)
  | .fault f => .fault f
  | .refused r => .refused r

/-- TRAP, the whole dispatcher (R180). -/
def execTrap (v : BitVec 8) (s : State) : Host.Outcome State Fault Refusal := withRawMode (trapRoutine v) s

/-- TRAP with vector TRAP_GETC (R183). -/
def execGetc (s : State) : Host.Outcome State Fault Refusal := withRawMode (trapRoutine Config.trapGetc) s

/-- TRAP with vector TRAP_OUT (R184). -/
def execOut (s : State) : Host.Outcome State Fault Refusal := withRawMode (trapRoutine Config.trapOut) s

/-- TRAP with vector TRAP_PUTS (R185). -/
def execPuts (s : State) : Host.Outcome State Fault Refusal := withRawMode (trapRoutine Config.trapPuts) s

/-- TRAP with vector TRAP_IN (R186). -/
def execInChar (s : State) : Host.Outcome State Fault Refusal := withRawMode (trapRoutine Config.trapIn) s

/-- TRAP with vector TRAP_PUTSP (R187). -/
def execPutsp (s : State) : Host.Outcome State Fault Refusal := withRawMode (trapRoutine Config.trapPutsp) s

/-- TRAP with vector TRAP_HALT (R188). -/
def execHalt (s : State) : Host.Outcome State Fault Refusal := withRawMode (trapRoutine Config.trapHalt) s

end Sys2Proof.Machine
end

