-- ==== Sys2Proof/Machine/Step.lean ====
section
/-! DEFINITION. One step (30_encoding.md R91, R92), and the placing of an instruction where the next fetch finds it. -/

namespace Sys2Proof.Machine

/-- One step (R91): fetch, increment PC, decode, execute; enabled only while `running` (R92). -/
def step (s : State) : Host.Outcome State Fault Refusal :=
  if s.running then exec (decode (fetch s).1) (fetch s).2 else .fault .halted

/-- The state with a table word stored at PC, where the next fetch reads it. Every instruction is one word (R80). A store at KBSR_ADDR
would be overwritten by the fetch's own poll (R53, R56), and a halted machine has no next fetch (R92): log 13. -/
def State.withFetchWord (s : State) (nbits w : Nat) : State :=
  s.setMem (s.mem.write s.pc (BitVec.ofNat 16 (w % 2 ^ nbits)))

end Sys2Proof.Machine
end

