-- ==== Sys2Proof/Machine/Loader.lean ====
section
/-! DEFINITION. The image loader and the start of execution (70_reset_and_hazards.md R252 to R256). It runs before the
first step; it reads nothing, polls nothing and changes memory only. -/

namespace Sys2Proof.Machine

/-- Why an image is not loaded (R253). -/
inductive LoadError where
  /-- The stream is shorter than 2 bytes (92 D24). -/
  | malformed
  /-- The payload would overflow the address space (90 C4). -/
  | overflow
  /-- The stream cannot be opened or read: a condition of the host. -/
  | unreadable
  deriving DecidableEq, Repr

/-- The payload as big-endian words; a final odd byte is dropped (R252). -/
def imageWords : List Byte → List Word
  | h :: l :: rest => wordOfBytes h l :: imageWords rest
  | _ => []

/-- Words written contiguously from an address on, by direct stores (R252). -/
def writeWords (m : Memory) (origin : Word) : List Word → Memory
  | [] => m
  | w :: rest => writeWords (m.write origin w) (origin + 1) rest

/-- `Load(s)` (R252): the memory after one image, or the error with no word of memory changed (R253). -/
def loadImage (m : Memory) : List Byte → Except LoadError Memory
  | h :: l :: payload =>
    let origin := wordOfBytes h l
    let words := imageWords payload
    if origin.toNat + words.length > 65536 then .error .overflow else .ok (writeWords m origin words)
  | _ => .error .malformed

/-- One image as the host hands it over: its bytes, or nothing when it cannot be read (R253). -/
def loadStream (m : Memory) : Option (List Byte) → Except LoadError Memory
  | some bytes => loadImage m bytes
  | none => .error .unreadable

/-- Images loaded one after another into the same memory (R254): the memory after those that loaded, and one result per image, in order. -/
def loadAll (m : Memory) : List (Option (List Byte)) → Memory × List (Option LoadError)
  | [] => (m, [])
  | image :: rest =>
    match loadStream m image with
    | .ok m' => ((loadAll m' rest).1, none :: (loadAll m' rest).2)
    | .error e => ((loadAll m rest).1, some e :: (loadAll m rest).2)

/-- The machine ready for its first step: the construction of R250 with the images loaded, only if every load succeeded
(R255; 90 C6), else the per-image results (R253). It is the one way from images to a machine, and it starts at the
construction and not at a given machine: no load is possible after the first step (R254; log 13). -/
def boot (gprInit : Vector Word 8) (countInit : Word) (input : List Arrival) (inputRest : Option Byte)
    (sinkLimit : Option Nat) (images : List (Option (List Byte))) : Except (List (Option LoadError)) State :=
  let s := State.construct gprInit countInit input inputRest sinkLimit
  let loaded := loadAll s.mem images
  if loaded.2.all Option.isNone then .ok (s.setMem loaded.1) else .error loaded.2

end Sys2Proof.Machine
end

