-- ==== Sys2Proof/Safety.lean ====
section
/-! DEFINITION. What claims use: the ends of a run (60_exceptions.md R221; 70_reset_and_hazards.md R261), the invariant of
the machine's state (10_state.md R27, R33), the classes of instructions, and the plain-number readings of results,
addresses, strings and images. -/

namespace Sys2Proof.Machine

/-! ### Ends and the invariant -/

/-- The spec's number for a reason (R221; 92 D34). -/
def HaltReason.code : HaltReason → Nat
  | .haltTrap => 0
  | .illegalOpcode _ => 1
  | .unknownTrap _ => 2
  | .outputError => 3

/-- A final state (R261). -/
def State.final (s : State) : Prop := s.running = false

/-- A run "ends normally": Halted by a HALT trap (R221). -/
def State.normalEnd (s : State) : Prop := s.final ∧ s.haltReason = some .haltTrap

/-- A fault end: Halted for any other reason (R221). -/
def State.faultEnd (s : State) : Prop := s.final ∧ s.haltReason ≠ some .haltTrap

/-- COND holds exactly one of the three patterns (R27). -/
def State.condLegal (s : State) : Prop :=
  s.cond = Config.condPositive ∨ s.cond = Config.condZero ∨ s.cond = Config.condNegative

/-- A reason that R221 allows: an illegal opcode is 8 or 13, an unknown vector is none of the six. -/
def HaltReason.legal : HaltReason → Prop
  | .haltTrap => True
  | .illegalOpcode op => op = 8 ∨ op = 13
  | .unknownTrap v => isRoutineVector v = false
  | .outputError => True

/-- A halted machine says why, and the reason is one that R221 allows (R33). -/
def State.haltLegal (s : State) : Prop := s.running = false → ∃ r, s.haltReason = some r ∧ r.legal

/-- The invariant of the machine: canonical memory, a legal COND, a legal reason when halted. -/
def State.Inv (s : State) : Prop := Memory.wf s.mem ∧ s.condLegal ∧ s.haltLegal

/-! ### Readings of results, addresses, strings and images -/

/-- COND tells the sign of a value, read as a two's-complement number: the words of R28 without its bit tests. -/
def CondTells (c v : Word) : Prop :=
  (v.toInt = 0 ∧ c = Config.condZero) ∨ (v.toInt < 0 ∧ c = Config.condNegative) ∨ (0 < v.toInt ∧ c = Config.condPositive)

/-- A base and a signed distance as an address, modulo 2^16 (R51, R85). -/
def relAddr (base : Word) (distance : Int) : Word := BitVec.ofInt 16 (base.toNat + distance)

/-- The sink takes at least `n` more output calls (R240). -/
def State.sinkTakes (s : State) (n : Nat) : Prop := ∀ k, s.sinkLimit = some k → n ≤ k

/-- The sink's limit after `n` calls that succeeded. -/
def State.sinkAfter (s : State) (n : Nat) : Option Nat := s.sinkLimit.map (· - n)

/-- The non-zero words that MemRead gives one after another from an address on, and the machine after these reads: one at
KBSR_ADDR polls (R185, R191). -/
def ReadsWords : State → Word → List Word → State → Prop
  | s, _, [], t => t = s
  | s, a, w :: ws, t => (memRead a s).1 = w ∧ w ≠ 0 ∧ ReadsWords (memRead a s).2 (a + 1) ws t

/-- A whole word string as PUTS reads it: non-zero words and then 0x0000 (R185). -/
def ReadsString (s : State) (a : Word) (ws : List Word) (t : State) : Prop :=
  ∃ u, ReadsWords s a ws u ∧ memRead (a + BitVec.ofNat 16 ws.length) u = (0, t)

/-- The non-zero characters that PUTSP takes from an address on, low byte then high byte of each word, and the machine
after the reads of their words (R187, R191). -/
def ReadsBytes : State → Word → List Byte → State → Prop
  | s, _, [], t => t = s
  | s, a, [b], t => lowByte (memRead a s).1 = b ∧ b ≠ 0 ∧ t = (memRead a s).2
  | s, a, b :: c :: bs, t =>
    lowByte (memRead a s).1 = b ∧ b ≠ 0 ∧ highByte (memRead a s).1 = c ∧ c ≠ 0 ∧ ReadsBytes (memRead a s).2 (a + 1) bs t

/-- A whole packed string as PUTSP reads it, up to the first zero byte in either position (R187). -/
def ReadsPacked : State → Word → List Byte → State → Prop
  | s, a, [], t => lowByte (memRead a s).1 = 0 ∧ t = (memRead a s).2
  | s, a, [b], t => lowByte (memRead a s).1 = b ∧ b ≠ 0 ∧ highByte (memRead a s).1 = 0 ∧ t = (memRead a s).2
  | s, a, b :: c :: bs, t =>
    lowByte (memRead a s).1 = b ∧ b ≠ 0 ∧ highByte (memRead a s).1 = c ∧ c ≠ 0 ∧ ReadsPacked (memRead a s).2 (a + 1) bs t

/-- The words that the `n` reads from an address on touch do not include KBSR_ADDR. -/
def AvoidsStatus (a : Word) (n : Nat) : Prop := ∀ j, j < n → a + BitVec.ofNat 16 j ≠ Config.kbsrAddr

/-- The payload bytes of words, each big-endian (R252). -/
def payloadBytes : List Word → List Byte
  | [] => []
  | w :: ws => highByte w :: lowByte w :: payloadBytes ws

/-- The image of an origin and words (R252). -/
def imageBytes (origin : Word) (ws : List Word) : List Byte := highByte origin :: lowByte origin :: payloadBytes ws

/-- The result of one image by itself, on an empty memory: nothing when it loads, else why not (R253). -/
def imageResult (image : Option (List Byte)) : Option LoadError :=
  match loadStream [] image with
  | .ok _ => none
  | .error e => some e

/-! ### Classes of instructions -/

/-- A TRAP word's vector selects GETC or IN, the routines that write R0 and COND (R180, R190). -/
def readsCharacter (v : BitVec 8) : Bool := v == Config.trapGetc || v == Config.trapIn

/-- The instructions that call setcc (R29). -/
def setsFlags : Instr → Bool
  | .addReg _ _ _ => true
  | .addImm _ _ _ => true
  | .andReg _ _ _ => false
  | .andImm _ _ _ => false
  | .not _ _ => true
  | .br _ _ _ _ => false
  | .jmp _ => false
  | .ret => false
  | .jsr _ => false
  | .jsrr _ => false
  | .ld _ _ => true
  | .ldi _ _ => true
  | .ldr _ _ _ => true
  | .lea _ _ => true
  | .st _ _ => false
  | .sti _ _ => false
  | .str _ _ _ => false
  | .trap v => readsCharacter v
  | .getc => true
  | .out => false
  | .puts => false
  | .inChar => true
  | .putsp => false
  | .halt => false
  | .rti => false
  | .res => false

/-- The one general register an instruction may write (10_state.md section 10). -/
def destReg : Instr → Option Reg
  | .addReg dr _ _ => some dr
  | .addImm dr _ _ => some dr
  | .andReg dr _ _ => some dr
  | .andImm dr _ _ => some dr
  | .not dr _ => some dr
  | .br _ _ _ _ => none
  | .jmp _ => none
  | .ret => none
  | .jsr _ => some linkReg
  | .jsrr _ => some linkReg
  | .ld dr _ => some dr
  | .ldi dr _ => some dr
  | .ldr dr _ _ => some dr
  | .lea dr _ => some dr
  | .st _ _ => none
  | .sti _ _ => none
  | .str _ _ _ => none
  | .trap v => if readsCharacter v then some trapReg else none
  | .getc => some trapReg
  | .out => none
  | .puts => none
  | .inChar => some trapReg
  | .putsp => none
  | .halt => none
  | .rti => none
  | .res => none

/-- The control-transfer instructions (41_control.md). -/
def isControl : Instr → Bool
  | .addReg _ _ _ => false
  | .addImm _ _ _ => false
  | .andReg _ _ _ => false
  | .andImm _ _ _ => false
  | .not _ _ => false
  | .br _ _ _ _ => true
  | .jmp _ => true
  | .ret => true
  | .jsr _ => true
  | .jsrr _ => true
  | .ld _ _ => false
  | .ldi _ _ => false
  | .ldr _ _ _ => false
  | .lea _ _ => false
  | .st _ _ => false
  | .sti _ _ => false
  | .str _ _ _ => false
  | .trap _ => false
  | .getc => false
  | .out => false
  | .puts => false
  | .inChar => false
  | .putsp => false
  | .halt => false
  | .rti => false
  | .res => false

/-- The stores (42_load_store.md section 4). -/
def isStore : Instr → Bool
  | .addReg _ _ _ => false
  | .addImm _ _ _ => false
  | .andReg _ _ _ => false
  | .andImm _ _ _ => false
  | .not _ _ => false
  | .br _ _ _ _ => false
  | .jmp _ => false
  | .ret => false
  | .jsr _ => false
  | .jsrr _ => false
  | .ld _ _ => false
  | .ldi _ _ => false
  | .ldr _ _ _ => false
  | .lea _ _ => false
  | .st _ _ => true
  | .sti _ _ => true
  | .str _ _ _ => true
  | .trap _ => false
  | .getc => false
  | .out => false
  | .puts => false
  | .inChar => false
  | .putsp => false
  | .halt => false
  | .rti => false
  | .res => false

/-- The rows of the TRAP format (43_trap.md). -/
def isTrap : Instr → Bool
  | .addReg _ _ _ => false
  | .addImm _ _ _ => false
  | .andReg _ _ _ => false
  | .andImm _ _ _ => false
  | .not _ _ => false
  | .br _ _ _ _ => false
  | .jmp _ => false
  | .ret => false
  | .jsr _ => false
  | .jsrr _ => false
  | .ld _ _ => false
  | .ldi _ _ => false
  | .ldr _ _ _ => false
  | .lea _ _ => false
  | .st _ _ => false
  | .sti _ _ => false
  | .str _ _ _ => false
  | .trap _ => true
  | .getc => true
  | .out => true
  | .puts => true
  | .inChar => true
  | .putsp => true
  | .halt => true
  | .rti => false
  | .res => false

/-- The two illegal opcodes (44_reserved.md). -/
def isIllegal : Instr → Bool
  | .addReg _ _ _ => false
  | .addImm _ _ _ => false
  | .andReg _ _ _ => false
  | .andImm _ _ _ => false
  | .not _ _ => false
  | .br _ _ _ _ => false
  | .jmp _ => false
  | .ret => false
  | .jsr _ => false
  | .jsrr _ => false
  | .ld _ _ => false
  | .ldi _ _ => false
  | .ldr _ _ _ => false
  | .lea _ _ => false
  | .st _ _ => false
  | .sti _ _ => false
  | .str _ _ _ => false
  | .trap _ => false
  | .getc => false
  | .out => false
  | .puts => false
  | .inChar => false
  | .putsp => false
  | .halt => false
  | .rti => true
  | .res => true

end Sys2Proof.Machine
end

