-- ==== Sys2Proof/Certificates/Slice0/Obligations.lean ====
section
/-! DEFINITION. The statements for the provers, each from the numbered rules of spec/ named in its docstring. Where a
statement says `t = { s with … := t.… }`, every part of the state not listed there is unchanged, all of memory among it. -/

open Sys2Proof Sys2Proof.Machine

/-! ### Encoding -/

/-- Words written out from the formats of 30_encoding.md R83 decode to the instructions they stand for: the two example
words of the source (95 W7, W8) and one of each other family. -/
def Obligations.SpecWordsDecode : Prop :=
  decode 0b0001_000_001_0_00_010#16 = .addReg 0 1 2 ∧
  decode 0b1010_000_000000010#16 = .ldi 0 2 ∧
  decode 0b0101_001_010_1_01111#16 = .andImm 1 2 15 ∧
  decode 0b0000_0_0_1_111111101#16 = .br false false true 0x1FD ∧
  decode 0b0100_1_00000000011#16 = .jsr 3 ∧
  decode 0b0111_101_001_111111#16 = .str 5 1 0x3F ∧
  decode 0b1111_0000_00100101#16 = .halt ∧
  decode 0b1000_000000000000#16 = .rti

/-- Decoding an encoded well-formed instruction gives it back, with every operand (R83, R90, R95). -/
def Obligations.DecodeOfEncodeIsIdentity : Prop :=
  ∀ i : Instr, i.wellFormed = true → decode (encode i) = i

/-- Encoding a decoded word gives the word with its unused bits cleared, and every word decodes to a well-formed
instruction (R87, R90, R95). -/
def Obligations.EncodeOfDecodeClearsUnusedBits : Prop :=
  ∀ ir : Word, encode (decode ir) = ir &&& usedMask ir ∧ (decode ir).wellFormed = true

/-- From R87: two words that differ only in bits that their format does not read execute identically. -/
def Obligations.UnusedBitsAreNotRead : Prop :=
  ∀ (v w : Word) (s : State), v &&& usedMask v = w &&& usedMask v →
    decode v = decode w ∧ exec (decode v) s = exec (decode w) s

/-! ### Operands and flags -/

/-- From R8: sext_16 of a k-bit field, 1 <= k <= 16, is the two's-complement widening: the same signed number; unchanged
when the top bit is 0; idempotent on its low k bits; the identity for k = 16. -/
def Obligations.SignExtensionKeepsSignedValue : Prop :=
  (∀ (k : Nat) (v : BitVec k), 1 ≤ k → k ≤ 16 →
    (sext16 v).toInt = v.toInt ∧ (v.msb = false → (sext16 v).toNat = v.toNat) ∧
    sext16 ((sext16 v).setWidth k) = sext16 v) ∧
  ∀ v : BitVec 16, sext16 v = v

/-- R28: setcc(v) writes Zero, Negative or Positive into COND by v read as a two's-complement number, and nothing else;
and v is the final value of the destination register of the instruction that calls it. -/
def Obligations.SetccTellsTheSign : Prop :=
  (∀ (v : Word) (s : State), CondTells (setcc v s).cond v ∧ setcc v s = { s with cond := (setcc v s).cond }) ∧
  ∀ (i : Instr) (dr : Reg) (s t : State), setsFlags i = true → destReg i = some dr → exec i s = .next t →
    t.running = true → CondTells t.cond (t.reg dr)

/-! ### Memory -/

/-- From R36, R52, R53, R68: a poll request is answered with the next arrival, which it takes: a byte, or none at a moment
without one; when no arrival is left, with what the source answers for ever (the source as data: log 7). A read away from
KBSR_ADDR returns the stored word and changes nothing. A read of KBSR_ADDR polls first and returns the word the poll left:
when the poll finds a byte, that byte is stored, zero-extended, at KBDR_ADDR, and the status is 0x8000; when it finds none,
the status is 0 and KBDR keeps its value. Every other word, and everything but memory and the arrivals, is unchanged. -/
def Obligations.MemReadPollsExactlyAtStatus : Prop :=
  ((∀ (s : State) (b : Byte) (rest : List Arrival), s.input = .byte b :: rest →
      inPoll s = (some b, { s with input := rest })) ∧
    (∀ (s : State) (rest : List Arrival), s.input = .notYet :: rest → inPoll s = (none, { s with input := rest })) ∧
    ∀ s : State, s.input = [] → inPoll s = (s.inputRest, s)) ∧
  (∀ (a : Word) (s : State), a ≠ Config.kbsrAddr → memRead a s = (s.mem.read a, s)) ∧
  ∀ (s t : State) (w : Word), memRead Config.kbsrAddr s = (w, t) →
    t = { s with mem := t.mem, input := (inPoll s).2.input } ∧ t.mem.read Config.kbsrAddr = w ∧
    (∀ a, a ≠ Config.kbsrAddr → a ≠ Config.kbdrAddr → t.mem.read a = s.mem.read a) ∧
    (∀ b, (inPoll s).1 = some b → w = 0x8000 ∧ (t.mem.read Config.kbdrAddr).toNat = b.toNat) ∧
    ((inPoll s).1 = none → w = 0 ∧ t.mem.read Config.kbdrAddr = s.mem.read Config.kbdrAddr)

/-- R54: a store changes exactly the word at its address, KBSR_ADDR and KBDR_ADDR included, and triggers nothing; the
next poll overwrites a stored KBSR, and a stored KBDR only if a byte is available. -/
def Obligations.MemWriteStoresOneWord : Prop :=
  (∀ (a v : Word) (s : State),
    (memWrite a v s).mem.read a = v ∧ (∀ b, b ≠ a → (memWrite a v s).mem.read b = s.mem.read b) ∧
    memWrite a v s = { s with mem := (memWrite a v s).mem }) ∧
  ∀ (v : Word) (s : State),
    (∀ b, (poll (memWrite Config.kbsrAddr v s)).mem.read b = (poll s).mem.read b) ∧
    (poll (memWrite Config.kbdrAddr v s)).mem.read Config.kbdrAddr =
      if (inPoll s).1.isSome then (poll s).mem.read Config.kbdrAddr else v

/-! ### Operate instructions -/

/-- R110: ADD, register mode: DR <- (SR1 + SR2) mod 65536, COND by its sign, nothing else; from any word of the form. -/
def Obligations.AddRegisterAddsAndSetsFlags : Prop :=
  (∀ ir : Word, opcodeField ir = 0b0001#4 → ir.getLsbD 5 = false →
    decode ir = .addReg (regField ir 9) (regField ir 6) (regField ir 0)) ∧
  ∀ (dr sr1 sr2 : Reg) (s : State), ∃ t, exec (.addReg dr sr1 sr2) s = .next t ∧
    (t.reg dr).toNat = ((s.reg sr1).toNat + (s.reg sr2).toNat) % 65536 ∧ CondTells t.cond (t.reg dr) ∧
    (∀ r, r ≠ dr → t.reg r = s.reg r) ∧ t = { s with regs := t.regs, cond := t.cond }

/-- R111: ADD, immediate mode: DR <- SR1 + the signed imm5 modulo 2^16, COND by its sign, nothing else. -/
def Obligations.AddImmediateAddsAndSetsFlags : Prop :=
  (∀ ir : Word, opcodeField ir = 0b0001#4 → ir.getLsbD 5 = true →
    decode ir = .addImm (regField ir 9) (regField ir 6) (imm5Field ir)) ∧
  ∀ (dr sr1 : Reg) (imm5 : BitVec 5) (s : State), ∃ t, exec (.addImm dr sr1 imm5) s = .next t ∧
    t.reg dr = BitVec.ofInt 16 ((s.reg sr1).toNat + imm5.toInt) ∧ CondTells t.cond (t.reg dr) ∧
    (∀ r, r ≠ dr → t.reg r = s.reg r) ∧ t = { s with regs := t.regs, cond := t.cond }

/-- R112: AND, register mode: each bit of DR is the conjunction of the sources' bits; COND and everything else unchanged. -/
def Obligations.AndRegisterLeavesFlags : Prop :=
  (∀ ir : Word, opcodeField ir = 0b0101#4 → ir.getLsbD 5 = false →
    decode ir = .andReg (regField ir 9) (regField ir 6) (regField ir 0)) ∧
  ∀ (dr sr1 sr2 : Reg) (s : State), ∃ t, exec (.andReg dr sr1 sr2) s = .next t ∧
    (∀ j, (t.reg dr).getLsbD j = ((s.reg sr1).getLsbD j && (s.reg sr2).getLsbD j)) ∧
    (∀ r, r ≠ dr → t.reg r = s.reg r) ∧ t = { s with regs := t.regs }

/-- R113: AND, immediate mode: the low 5 bits meet imm5, each higher bit meets imm5's top bit; COND and everything else
unchanged. -/
def Obligations.AndImmediateLeavesFlags : Prop :=
  (∀ ir : Word, opcodeField ir = 0b0101#4 → ir.getLsbD 5 = true →
    decode ir = .andImm (regField ir 9) (regField ir 6) (imm5Field ir)) ∧
  ∀ (dr sr1 : Reg) (imm5 : BitVec 5) (s : State), ∃ t, exec (.andImm dr sr1 imm5) s = .next t ∧
    (∀ j, (t.reg dr).getLsbD j = ((s.reg sr1).getLsbD j && (if j < 5 then imm5.getLsbD j else imm5.msb))) ∧
    (∀ r, r ≠ dr → t.reg r = s.reg r) ∧ t = { s with regs := t.regs }

/-- R114: NOT: each of the 16 bits of DR is the complement of SR's, COND by the sign, nothing else. -/
def Obligations.NotComplementsAndSetsFlags : Prop :=
  (∀ ir : Word, opcodeField ir = 0b1001#4 → decode ir = .not (regField ir 9) (regField ir 6)) ∧
  ∀ (dr sr : Reg) (s : State), ∃ t, exec (.not dr sr) s = .next t ∧
    (∀ j, j < 16 → (t.reg dr).getLsbD j = !(s.reg sr).getLsbD j) ∧ CondTells t.cond (t.reg dr) ∧
    (∀ r, r ≠ dr → t.reg r = s.reg r) ∧ t = { s with regs := t.regs, cond := t.cond }

/-! ### Control transfer -/

/-- From R130: BR goes to PC + the signed PCoffset9 when an asserted bit of n, z, p meets a set bit of COND (n bit 2, z bit 1,
p bit 0), and otherwise changes nothing; with a legal COND that is: n meets Negative, z Zero, p Positive. -/
def Obligations.BranchTestsCond : Prop :=
  (∀ ir : Word, opcodeField ir = 0b0000#4 →
    decode ir = .br (ir.getLsbD 11) (ir.getLsbD 10) (ir.getLsbD 9) (pcOffset9Field ir)) ∧
  (∀ (n z p : Bool) (off : BitVec 9) (s : State), exec (.br n z p off) s = .next
    { s with pc := if (n && s.cond.getLsbD 2) || (z && s.cond.getLsbD 1) || (p && s.cond.getLsbD 0)
                   then relAddr s.pc off.toInt else s.pc }) ∧
  ∀ (n z p : Bool) (off : BitVec 9) (s : State), s.condLegal → exec (.br n z p off) s = .next
    { s with pc := if (n = true ∧ s.cond = Config.condNegative) ∨ (z = true ∧ s.cond = Config.condZero) ∨
                      (p = true ∧ s.cond = Config.condPositive)
                   then relAddr s.pc off.toInt else s.pc }

/-- R131, R132: every word of opcode 12, RET among them and whatever its unused bits, only sets PC to the register that
ir[8:6] names. -/
def Obligations.JumpWordsGoToTheirBase : Prop :=
  (∀ (ir : Word) (s : State), opcodeField ir = 0b1100#4 →
    exec (decode ir) s = .next { s with pc := s.reg (regField ir 6) }) ∧
  (∀ (baseR : Reg) (s : State), exec (.jmp baseR) s = .next { s with pc := s.reg baseR }) ∧
  ∀ s : State, exec .ret s = .next { s with pc := s.reg 7 }

/-- R133: JSR writes the incremented PC to R7 and goes to PC + the signed PCoffset11; nothing else changes. -/
def Obligations.JsrLinksAndBranches : Prop :=
  (∀ ir : Word, opcodeField ir = 0b0100#4 → ir.getLsbD 11 = true → decode ir = .jsr (pcOffset11Field ir)) ∧
  ∀ (off : BitVec 11) (s : State), ∃ t, exec (.jsr off) s = .next t ∧
    t.reg 7 = s.pc ∧ t.pc = relAddr s.pc off.toInt ∧ (∀ r, r ≠ 7 → t.reg r = s.reg r) ∧
    t = { s with regs := t.regs, pc := t.pc }

/-- From R134: JSRR writes the incremented PC to R7 first and then reads its base, so JSRR R7 goes to the incremented PC. -/
def Obligations.JsrrLinksBeforeReadingBase : Prop :=
  (∀ ir : Word, opcodeField ir = 0b0100#4 → ir.getLsbD 11 = false → decode ir = .jsrr (regField ir 6)) ∧
  ∀ (baseR : Reg) (s : State), ∃ t, exec (.jsrr baseR) s = .next t ∧
    t.reg 7 = s.pc ∧ t.pc = (if baseR = 7 then s.pc else s.reg baseR) ∧ (∀ r, r ≠ 7 → t.reg r = s.reg r) ∧
    t = { s with regs := t.regs, pc := t.pc }

/-! ### Loads, LEA, stores -/

/-- R150: LD loads the word that MemRead gives at PC + the signed PCoffset9 and sets COND by its sign. Memory and the
arrivals change only by the poll of a read at KBSR_ADDR, and then only KBSR and KBDR. -/
def Obligations.LdLoadsPcRelative : Prop :=
  (∀ ir : Word, opcodeField ir = 0b0010#4 → decode ir = .ld (regField ir 9) (pcOffset9Field ir)) ∧
  ∀ (dr : Reg) (off : BitVec 9) (s : State), ∃ t, exec (.ld dr off) s = .next t ∧
    t.reg dr = (memRead (relAddr s.pc off.toInt) s).1 ∧ CondTells t.cond (t.reg dr) ∧
    (∀ r, r ≠ dr → t.reg r = s.reg r) ∧
    t = { (memRead (relAddr s.pc off.toInt) s).2 with regs := t.regs, cond := t.cond } ∧
    t = { s with regs := t.regs, cond := t.cond, mem := t.mem, input := t.input } ∧
    (∀ a, a ≠ Config.kbsrAddr → a ≠ Config.kbdrAddr → t.mem.read a = s.mem.read a) ∧
    (relAddr s.pc off.toInt ≠ Config.kbsrAddr →
      t.reg dr = s.mem.read (relAddr s.pc off.toInt) ∧ t.mem = s.mem ∧ t.input = s.input)

/-- R151: LDI reads a pointer at PC + the signed PCoffset9 and then the word at the pointer, each read by MemRead and in
this order, and sets COND by the word's sign. -/
def Obligations.LdiLoadsIndirect : Prop :=
  (∀ ir : Word, opcodeField ir = 0b1010#4 → decode ir = .ldi (regField ir 9) (pcOffset9Field ir)) ∧
  ∀ (dr : Reg) (off : BitVec 9) (s u : State) (ea : Word), memRead (relAddr s.pc off.toInt) s = (ea, u) →
    ∃ t, exec (.ldi dr off) s = .next t ∧
      t.reg dr = (memRead ea u).1 ∧ CondTells t.cond (t.reg dr) ∧ (∀ r, r ≠ dr → t.reg r = s.reg r) ∧
      t = { (memRead ea u).2 with regs := t.regs, cond := t.cond } ∧
      t = { s with regs := t.regs, cond := t.cond, mem := t.mem, input := t.input } ∧
      (∀ a, a ≠ Config.kbsrAddr → a ≠ Config.kbdrAddr → t.mem.read a = s.mem.read a) ∧
      (relAddr s.pc off.toInt ≠ Config.kbsrAddr → ea ≠ Config.kbsrAddr →
        t.reg dr = s.mem.read (s.mem.read (relAddr s.pc off.toInt)) ∧ t.mem = s.mem ∧ t.input = s.input)

/-- R152: LDR loads the word that MemRead gives at BaseR + the signed offset6, the base read before DR is written, and
sets COND by its sign. -/
def Obligations.LdrLoadsBasePlusOffset : Prop :=
  (∀ ir : Word, opcodeField ir = 0b0110#4 → decode ir = .ldr (regField ir 9) (regField ir 6) (offset6Field ir)) ∧
  ∀ (dr baseR : Reg) (off : BitVec 6) (s : State), ∃ t, exec (.ldr dr baseR off) s = .next t ∧
    t.reg dr = (memRead (relAddr (s.reg baseR) off.toInt) s).1 ∧ CondTells t.cond (t.reg dr) ∧
    (∀ r, r ≠ dr → t.reg r = s.reg r) ∧
    t = { (memRead (relAddr (s.reg baseR) off.toInt) s).2 with regs := t.regs, cond := t.cond } ∧
    t = { s with regs := t.regs, cond := t.cond, mem := t.mem, input := t.input } ∧
    (∀ a, a ≠ Config.kbsrAddr → a ≠ Config.kbdrAddr → t.mem.read a = s.mem.read a) ∧
    (relAddr (s.reg baseR) off.toInt ≠ Config.kbsrAddr →
      t.reg dr = s.mem.read (relAddr (s.reg baseR) off.toInt) ∧ t.mem = s.mem ∧ t.input = s.input)

/-- R153: LEA loads the address PC + the signed PCoffset9 itself and sets COND by its sign; no memory access, no poll. -/
def Obligations.LeaLoadsTheAddress : Prop :=
  (∀ ir : Word, opcodeField ir = 0b1110#4 → decode ir = .lea (regField ir 9) (pcOffset9Field ir)) ∧
  ∀ (dr : Reg) (off : BitVec 9) (s : State), ∃ t, exec (.lea dr off) s = .next t ∧
    t.reg dr = relAddr s.pc off.toInt ∧ CondTells t.cond (t.reg dr) ∧ (∀ r, r ≠ dr → t.reg r = s.reg r) ∧
    t = { s with regs := t.regs, cond := t.cond }

/-- R154: ST stores SR at PC + the signed PCoffset9; every other word and everything else is unchanged. -/
def Obligations.StStoresPcRelative : Prop :=
  (∀ ir : Word, opcodeField ir = 0b0011#4 → decode ir = .st (regField ir 9) (pcOffset9Field ir)) ∧
  ∀ (sr : Reg) (off : BitVec 9) (s : State), ∃ t, exec (.st sr off) s = .next t ∧
    t.mem.read (relAddr s.pc off.toInt) = s.reg sr ∧
    (∀ a, a ≠ relAddr s.pc off.toInt → t.mem.read a = s.mem.read a) ∧ t = { s with mem := t.mem }

/-- From R155: STI stores SR at the address that MemRead gives at PC + the signed PCoffset9. Beside the stored word, memory
and the arrivals change only by the poll of a pointer read at KBSR_ADDR. -/
def Obligations.StiStoresIndirect : Prop :=
  (∀ ir : Word, opcodeField ir = 0b1011#4 → decode ir = .sti (regField ir 9) (pcOffset9Field ir)) ∧
  ∀ (sr : Reg) (off : BitVec 9) (s u : State) (ea : Word), memRead (relAddr s.pc off.toInt) s = (ea, u) →
    ∃ t, exec (.sti sr off) s = .next t ∧
      t.mem.read ea = s.reg sr ∧ (∀ a, a ≠ ea → t.mem.read a = u.mem.read a) ∧ t = { u with mem := t.mem } ∧
      t = { s with mem := t.mem, input := t.input } ∧
      (∀ a, a ≠ ea → a ≠ Config.kbsrAddr → a ≠ Config.kbdrAddr → t.mem.read a = s.mem.read a) ∧
      (relAddr s.pc off.toInt ≠ Config.kbsrAddr →
        ea = s.mem.read (relAddr s.pc off.toInt) ∧ t.input = s.input ∧
        ∀ a, a ≠ ea → t.mem.read a = s.mem.read a)

/-- R156: STR stores SR at BaseR + the signed offset6; every other word and everything else is unchanged. -/
def Obligations.StrStoresBasePlusOffset : Prop :=
  (∀ ir : Word, opcodeField ir = 0b0111#4 → decode ir = .str (regField ir 9) (regField ir 6) (offset6Field ir)) ∧
  ∀ (sr baseR : Reg) (off : BitVec 6) (s : State), ∃ t, exec (.str sr baseR off) s = .next t ∧
    t.mem.read (relAddr (s.reg baseR) off.toInt) = s.reg sr ∧
    (∀ a, a ≠ relAddr (s.reg baseR) off.toInt → t.mem.read a = s.mem.read a) ∧ t = { s with mem := t.mem }

/-! ### Traps -/

/-- From R180, R182, R86: every word of opcode 15 dispatches on its low 8 bits alone: the six vectors to the six routines'
rows, and TRAP with a routine's vector is that routine. -/
def Obligations.TrapDispatchesOnItsVector : Prop :=
  (∀ (ir : Word) (s : State), opcodeField ir = 0b1111#4 → exec (decode ir) s = exec (.trap (trapvect8Field ir)) s) ∧
  ∀ s : State,
    exec (.trap Config.trapGetc) s = exec .getc s ∧ exec (.trap Config.trapOut) s = exec .out s ∧
    exec (.trap Config.trapPuts) s = exec .puts s ∧ exec (.trap Config.trapIn) s = exec .inChar s ∧
    exec (.trap Config.trapPutsp) s = exec .putsp s ∧ exec (.trap Config.trapHalt) s = exec .halt s

/-- From R181: every trap that answers, whatever its vector and its end, appends RawEnter, then events that are no bracket,
then RawRestore. -/
def Obligations.EveryTrapIsBracketed : Prop :=
  ∀ (i : Instr) (s t : State), isTrap i = true → exec i s = .next t →
    ∃ es, t.output = s.output ++ .rawEnter :: es ++ [.rawRestore] ∧ OutEvent.rawEnter ∉ es ∧ OutEvent.rawRestore ∉ es

/-- From R190: a trap writes no register but R0, and R0 and COND only by GETC and IN; PC stays at the word after the TRAP;
memory is changed only at KBSR_ADDR and KBDR_ADDR (by a string's poll); COUNT and the diagnostics are unchanged. -/
def Obligations.TrapSavesNoState : Prop :=
  ∀ (v : BitVec 8) (s t : State), exec (.trap v) s = .next t →
    t.pc = s.pc ∧ (∀ r, r ≠ 0 → t.reg r = s.reg r) ∧
    (v ≠ Config.trapGetc → v ≠ Config.trapIn → t.reg 0 = s.reg 0 ∧ t.cond = s.cond) ∧
    (∀ a, a ≠ Config.kbsrAddr → a ≠ Config.kbdrAddr → t.mem.read a = s.mem.read a) ∧
    t.count = s.count ∧ t.diag = s.diag

/-- From R183: GETC consumes the next byte (past moments at which the source has none), puts it zero-extended in R0, sets
COND to Zero for 0x00 and Positive otherwise, records the bracket and changes nothing else. The last clause is the same
for a source whose listed arrivals are used up. -/
def Obligations.GetcReadsACharacter : Prop :=
  ∀ (s : State) (n : Nat) (b : Byte) (rest : List Arrival),
    (s.input = List.replicate n .notYet ++ .byte b :: rest ∨
      (s.input = List.replicate n .notYet ∧ s.inputRest = some b ∧ rest = [])) →
    ∃ t, exec .getc s = .next t ∧ (t.reg 0).toNat = b.toNat ∧
      t.cond = (if b = 0 then Config.condZero else Config.condPositive) ∧ (∀ r, r ≠ 0 → t.reg r = s.reg r) ∧
      t = { s with regs := t.regs, cond := t.cond, input := rest, output := s.output ++ [.rawEnter, .rawRestore] }

/-- From R184: OUT writes the low byte of R0, between the brackets, and changes nothing else, when the sink takes the byte. -/
def Obligations.OutWritesTheLowByte : Prop :=
  ∀ s : State, s.sinkTakes 1 →
    exec .out s = .next { s with
      output := s.output ++ [.rawEnter, .byte (BitVec.ofNat 8 (s.reg 0).toNat), .rawRestore], sinkLimit := s.sinkAfter 1 }

/-- From R185, R191: PUTS writes the low byte of each word of the string that MemRead gives from R0 on, between the
brackets, when the sink takes its bytes. Its reads change nothing but what the poll of a read at KBSR_ADDR changes:
nothing at all where the string does not pass there. -/
def Obligations.PutsWritesTheWordString : Prop :=
  ∀ (s t : State) (ws : List Word), ReadsString s (s.reg 0) ws t → s.sinkTakes ws.length →
    exec .puts s = .next { t with
      output := s.output ++ .rawEnter :: ws.map (fun w => .byte (BitVec.ofNat 8 w.toNat)) ++ [.rawRestore],
      sinkLimit := s.sinkAfter ws.length } ∧
    t = { s with mem := t.mem, input := t.input } ∧
    (∀ a, a ≠ Config.kbsrAddr → a ≠ Config.kbdrAddr → t.mem.read a = s.mem.read a) ∧
    (AvoidsStatus (s.reg 0) (ws.length + 1) → t = s)

/-- From R186: IN writes the prompt, consumes the next byte, echoes it, and leaves R0 and COND as GETC does, when the sink
takes the prompt and the echo. -/
def Obligations.InPromptsReadsAndEchoes : Prop :=
  ∀ (s : State) (n : Nat) (b : Byte) (rest : List Arrival), s.sinkTakes (Config.inPrompt.length + 1) →
    (s.input = List.replicate n .notYet ++ .byte b :: rest ∨
      (s.input = List.replicate n .notYet ∧ s.inputRest = some b ∧ rest = [])) →
    ∃ t, exec .inChar s = .next t ∧ (t.reg 0).toNat = b.toNat ∧
      t.cond = (if b = 0 then Config.condZero else Config.condPositive) ∧ (∀ r, r ≠ 0 → t.reg r = s.reg r) ∧
      t = { s with
        regs := t.regs, cond := t.cond, input := rest, sinkLimit := s.sinkAfter (Config.inPrompt.length + 1),
        output := s.output ++ .rawEnter :: Config.inPrompt.map .byte ++ [.byte b, .rawRestore] }

/-- From R187, R191: PUTSP writes the characters that MemRead gives from R0 on, low byte then high byte of each word up to
the first zero byte, between the brackets, when the sink takes them. Its reads change nothing but what the poll of a read
at KBSR_ADDR changes: nothing at all where the string does not pass there. -/
def Obligations.PutspWritesThePackedString : Prop :=
  ∀ (s t : State) (bs : List Byte), ReadsPacked s (s.reg 0) bs t → s.sinkTakes bs.length →
    exec .putsp s = .next { t with
      output := s.output ++ .rawEnter :: bs.map .byte ++ [.rawRestore], sinkLimit := s.sinkAfter bs.length } ∧
    t = { s with mem := t.mem, input := t.input } ∧
    (∀ a, a ≠ Config.kbsrAddr → a ≠ Config.kbdrAddr → t.mem.read a = s.mem.read a) ∧
    (AvoidsStatus (s.reg 0) (bs.length / 2 + 1) → t = s)

/-- From R188: HALT writes the notice and a flush between the brackets, sets running to false with reason HaltTrap, and alters
no register, flag or memory word, when the sink takes them. -/
def Obligations.HaltStopsNormally : Prop :=
  ∀ s : State, s.sinkTakes (Config.haltNotice.length + 1) →
    exec .halt s = .next { s with
      running := false, haltReason := some .haltTrap, sinkLimit := s.sinkAfter (Config.haltNotice.length + 1),
      output := s.output ++ .rawEnter :: Config.haltNotice.map .byte ++ [.flush, .rawRestore] }

/-- From R189: TRAP with a vector that is none of the six stops with UnknownTrap(v), records the bracket, and changes no
register, flag or memory word. -/
def Obligations.UnknownVectorStops : Prop :=
  ∀ (v : BitVec 8) (s : State), isRoutineVector v = false →
    exec (.trap v) s = .next { s with
      running := false, haltReason := some (.unknownTrap v), output := s.output ++ [.rawEnter, .rawRestore] }

/-- From R242, R224: an output failure in OUT, in HALT's notice or flush, or in IN's prompt or echo stops with OutputError,
not HaltTrap; the failed call appends no event, the calls before it have been recorded, nothing more of the routine is
done (no byte is consumed after a failed prompt, R0 is not written after a failed echo), and RawRestore follows. -/
def Obligations.RoutineOutputFailureStops : Prop :=
  (∀ s : State, s.sinkLimit = some 0 →
    exec .out s = .next { s with
      running := false, haltReason := some .outputError, output := s.output ++ [.rawEnter, .rawRestore] }) ∧
  (∀ (s : State) (k : Nat), s.sinkLimit = some k → k ≤ Config.haltNotice.length →
    exec .halt s = .next { s with
      running := false, haltReason := some .outputError, sinkLimit := some 0,
      output := s.output ++ .rawEnter :: (Config.haltNotice.take k).map .byte ++ [.rawRestore] }) ∧
  ∀ (s : State) (k : Nat) (rest : List Arrival), s.sinkLimit = some k → k ≤ Config.inPrompt.length →
    (if k < Config.inPrompt.length then rest = s.input
     else ∃ (n : Nat) (b : Byte), s.input = List.replicate n .notYet ++ .byte b :: rest ∨
       (s.input = List.replicate n .notYet ∧ s.inputRest = some b ∧ rest = [])) →
    exec .inChar s = .next { s with
      running := false, haltReason := some .outputError, sinkLimit := some 0, input := rest,
      output := s.output ++ .rawEnter :: (Config.inPrompt.take k).map .byte ++ [.rawRestore] }

/-- From R242, R224: an output failure inside PUTS or PUTSP stops the routine with OutputError at the failing character,
and the characters before it have been output; no further word is read. -/
def Obligations.StringOutputFailureStops : Prop :=
  (∀ (s t : State) (ws : List Word) (w : Word), ReadsWords s (s.reg 0) (ws ++ [w]) t → s.sinkLimit = some ws.length →
    exec .puts s = .next { t with
      running := false, haltReason := some .outputError, sinkLimit := some 0,
      output := s.output ++ .rawEnter :: ws.map (fun w => .byte (BitVec.ofNat 8 w.toNat)) ++ [.rawRestore] }) ∧
  ∀ (s t : State) (bs : List Byte) (b : Byte), ReadsBytes s (s.reg 0) (bs ++ [b]) t → s.sinkLimit = some bs.length →
    exec .putsp s = .next { t with
      running := false, haltReason := some .outputError, sinkLimit := some 0,
      output := s.output ++ .rawEnter :: bs.map .byte ++ [.rawRestore] }

/-- From R243: GETC, and IN once its prompt is out, never complete when the input source never supplies a byte. -/
def Obligations.BlockingReadWithoutInputIsStuck : Prop :=
  ∀ (s : State) (n : Nat), s.input = List.replicate n .notYet → s.inputRest = none →
    exec .getc s = .fault .noInput ∧ (s.sinkTakes Config.inPrompt.length → exec .inChar s = .fault .noInput)

/-- From R185, R191, R53: PUTS completes, over any memory, when the input source does not answer a byte for ever: the
poll at KBSR_ADDR then leaves a 0x0000 there on some pass. It rests on the string reads' poll (decision D12, log 5), on a
poll that always answers (the model's choice, log 6), on `inputRest`, the model's own field (log 7), and on the model's
bound (log 11). -/
def Obligations.PutsCompletesUnlessInputIsEndless : Prop :=
  ∀ s : State, s.inputRest = none → ∃ t, exec .puts s = .next t

/-- From R187, R191, R53: PUTSP completes from every state: the poll leaves a zero low byte at KBSR_ADDR whatever it finds.
It rests on the whole-word status 0x8000 (decision D8, log 5), on the string reads' poll (decision D12, log 5), on a poll
that always answers (the model's choice, log 6) and on the model's inference from them (log 11). -/
def Obligations.PutspAlwaysCompletes : Prop :=
  ∀ s : State, ∃ t, exec .putsp s = .next t

/-- From R185: where PUTS is stuck in the model, no number of further reads would end it: it is the spec's hang, and not a
bound of the model's (log 11). It rests on a source that at last answers one and the same byte for ever, or none at all
(the model's choice, log 7), and on a poll that always answers (log 6). -/
def Obligations.StuckPutsNeverEnds : Prop :=
  ∀ (s : State) (f : Fault), exec .puts s = .fault f →
    f = .endlessString ∧ ∀ n, putsLoop n (s.reg 0) (rawEnter s) = .fault .endlessString

/-! ### Illegal opcodes -/

/-- R210, R211, R212: every word of opcode 8 or 13, whatever its other bits, records one diagnostic and stops with
IllegalOpcode of its opcode; no register, flag or memory word changes. -/
def Obligations.IllegalOpcodesStop : Prop :=
  (∀ (ir : Word) (s : State), opcodeField ir = 8 ∨ opcodeField ir = 13 →
    exec (decode ir) s = .next { s with
      running := false, haltReason := some (.illegalOpcode (opcodeField ir)), diag := s.diag ++ [Config.illegalDiag] }) ∧
  (∀ s : State, exec .rti s = .next { s with
    running := false, haltReason := some (.illegalOpcode 8), diag := s.diag ++ [Config.illegalDiag] }) ∧
  ∀ s : State, exec .res s = .next { s with
    running := false, haltReason := some (.illegalOpcode 13), diag := s.diag ++ [Config.illegalDiag] }

/-! ### The step -/

/-- From R91: a step of a running machine reads the word at PC by MemRead, increments PC modulo 2^16, and executes the
instruction the word decodes to; away from KBSR_ADDR the read is plain. -/
def Obligations.StepRunsTheDecodedInstruction : Prop :=
  (∀ (s u : State) (ir : Word), s.running = true → memRead s.pc s = (ir, u) →
    step s = exec (decode ir) { u with pc := s.pc + 1 }) ∧
  ∀ (s : State) (i : Instr), s.running = true → s.pc ≠ Config.kbsrAddr → decode (s.mem.read s.pc) = i →
    step s = exec i { s with pc := s.pc + 1 }

/-- From R92: a halted machine has no step; that its step is the fault `halted` is the model's way of saying so (log 14). -/
def Obligations.HaltedMachineHasNoStep : Prop :=
  ∀ s : State, s.running = false → step s = .fault .halted ∧ ∀ t, step s ≠ .next t

/-- From R65: the word a ST stores at the address of the next instruction is what the next step executes. -/
def Obligations.StoreIsSeenByTheNextFetch : Prop :=
  ∀ (s : State) (sr : Reg) (off : BitVec 9), s.running = true → s.pc ≠ Config.kbsrAddr →
    decode (s.mem.read s.pc) = .st sr off → relAddr (s.pc + 1) off.toInt = s.pc + 1 → s.pc + 1 ≠ Config.kbsrAddr →
    ∃ t, step s = .next t ∧ step t = exec (decode (s.reg sr)) { t with pc := s.pc + 2 }

/-- From R258: the flag an ADD sets is what a BR in the next word tests. -/
def Obligations.FlagIsVisibleToTheNextBranch : Prop :=
  ∀ (s : State) (dr sr1 sr2 : Reg) (n z p : Bool) (off : BitVec 9), s.running = true →
    s.pc ≠ Config.kbsrAddr → s.pc + 1 ≠ Config.kbsrAddr →
    decode (s.mem.read s.pc) = .addReg dr sr1 sr2 → decode (s.mem.read (s.pc + 1)) = .br n z p off →
    ∃ t u, step s = .next t ∧ step t = .next u ∧
      u.pc = if (n = true ∧ (s.reg sr1 + s.reg sr2).toInt < 0) ∨ (z = true ∧ (s.reg sr1 + s.reg sr2).toInt = 0) ∨
                (p = true ∧ 0 < (s.reg sr1 + s.reg sr2).toInt)
             then relAddr (s.pc + 2) off.toInt else s.pc + 2

/-! ### Invariants and whole-machine rules -/

/-- R250: after construction, for every GPR_INIT, COUNT and host: memory reads 0x0000 everywhere, PC = 0x3000, COND =
Zero, running, no halt reason, an empty trace, the input source the host supplies; State.reset is one of these machines. -/
def Obligations.ConstructionLeavesResetValues : Prop :=
  (∀ (g : Vector Word 8) (c : Word) (i : List Arrival) (e : Option Byte) (k : Option Nat),
    let s := State.construct g c i e k
    (∀ a, s.mem.read a = 0) ∧ s.pc = 0x3000 ∧ s.cond = 2 ∧ s.running = true ∧ s.haltReason = none ∧
    (∀ r, s.reg r = g[r.val]) ∧ s.count = c ∧ s.input = i ∧ s.output = []) ∧
  ∃ g c i e k, State.reset = State.construct g c i e k

/-- The invariant holds after construction, for every value the spec leaves open (R27, R250). -/
def Obligations.ConstructionMeetsInvariant : Prop :=
  (∀ (g : Vector Word 8) (c : Word) (i : List Arrival) (e : Option Byte) (k : Option Nat),
    (State.construct g c i e k).Inv) ∧ State.reset.Inv

/-- Every step keeps the invariant: memory stays canonical, COND holds exactly one of its three patterns (R27), and a
machine that has halted says why, with a reason R221 allows. -/
def Obligations.EveryStepKeepsInvariant : Prop :=
  ∀ s t : State, s.Inv → step s = .next t → t.Inv

/-- From R29: COND is written by no instruction but those that call setcc. -/
def Obligations.OnlySetccInstructionsWriteCond : Prop :=
  ∀ (i : Instr) (s t : State), setsFlags i = false → exec i s = .next t → t.cond = s.cond

/-- From R25: PC advances by 1 modulo 2^16 at each fetch and is otherwise written only by control transfer. -/
def Obligations.OnlyControlTransferWritesPc : Prop :=
  (∀ s : State, (fetch s).2.pc = s.pc + 1) ∧
  ∀ (i : Instr) (s t : State), isControl i = false → exec i s = .next t → t.pc = s.pc

/-- An instruction writes no general register but the one the state table names for it (10_state.md section 10, R22). -/
def Obligations.OnlyTheDestinationRegisterIsWritten : Prop :=
  ∀ (i : Instr) (s t : State) (r : Reg), destReg i ≠ some r → exec i s = .next t → t.reg r = s.reg r

/-- Memory is written only by stores and by the poll (10_state.md section 10, R55): no other instruction changes a word
but KBSR and KBDR. -/
def Obligations.OnlyStoresAndPollsWriteMemory : Prop :=
  ∀ (i : Instr) (s t : State) (a : Word), isStore i = false → a ≠ Config.kbsrAddr → a ≠ Config.kbdrAddr →
    exec i s = .next t → t.mem.read a = s.mem.read a

/-- The output trace and the diagnostics only grow; only TRAP rows extend the trace and only the illegal opcodes the
diagnostics (10_state.md R36, 60_exceptions.md R231). -/
def Obligations.OnlyTrapsWriteOutput : Prop :=
  ∀ (i : Instr) (s t : State), exec i s = .next t →
    s.output <+: t.output ∧ s.diag <+: t.diag ∧ (isTrap i = false → t.output = s.output) ∧
    (isIllegal i = false → t.diag = s.diag)

/-- From R68: the poll, GETC and IN share one input sequence: a step consumes a prefix of what is in store and nothing brings
a consumed byte back. -/
def Obligations.InputIsConsumedInOrder : Prop :=
  ∀ s t : State, step s = .next t → t.input <:+ s.input ∧ t.inputRest = s.inputRest

/-- From R221, R222: a step that stops the machine does so for exactly one of the four reasons, by the instruction R221 names,
and PC is then one past the stopping instruction. -/
def Obligations.StopsOnlyForTheirReasons : Prop :=
  ∀ s t : State, step s = .next t → t.running = false →
    t.pc = s.pc + 1 ∧
    ((t.haltReason = some .haltTrap ∧ decode (fetch s).1 = .halt) ∨
     (t.haltReason = some (.illegalOpcode 8) ∧ decode (fetch s).1 = .rti) ∨
     (t.haltReason = some (.illegalOpcode 13) ∧ decode (fetch s).1 = .res) ∨
     (∃ v, t.haltReason = some (.unknownTrap v) ∧ decode (fetch s).1 = .trap v ∧ isRoutineVector v = false) ∨
     (t.haltReason = some .outputError ∧
       (decode (fetch s).1 = .out ∨ decode (fetch s).1 = .puts ∨ decode (fetch s).1 = .inChar ∨
        decode (fetch s).1 = .putsp ∨ decode (fetch s).1 = .halt)))

/-- From R31: COUNT has no architectural effect: two machines that differ only in COUNT take steps that differ only in COUNT,
and no step changes it. -/
def Obligations.CountIsUnobservable : Prop :=
  (∀ (s : State) (c : Word) (t : State), step s = .next t →
    step { s with count := c } = .next { t with count := c } ∧ t.count = s.count) ∧
  (∀ (s : State) (c : Word) (f : Fault), step s = .fault f → step { s with count := c } = .fault f)

/-! ### The image loader -/

/-- From R252: an image that fits writes its big-endian words contiguously from its origin, drops a final odd byte, and leaves
every other word alone. -/
def Obligations.ImageLoadsItsWords : Prop :=
  ∀ (m : Memory) (origin : Word) (ws : List Word) (odd : List Byte), odd.length ≤ 1 →
    origin.toNat + ws.length ≤ 65536 →
    ∃ m', loadImage m (imageBytes origin ws ++ odd) = .ok m' ∧
      (∀ (j : Nat) (h : j < ws.length), m'.read (BitVec.ofNat 16 (origin.toNat + j)) = ws[j]) ∧
      (∀ a : Word, a.toNat < origin.toNat ∨ origin.toNat + ws.length ≤ a.toNat → m'.read a = m.read a)

/-- From R253: an image shorter than two bytes, one that cannot be read, and one whose payload would pass the end of the
address space are load errors; one that fails leaves memory to the images after it and is reported in its place. -/
def Obligations.BadImagesAreRejected : Prop :=
  (∀ (m : Memory) (bytes : List Byte), bytes.length < 2 → loadStream m (some bytes) = .error .malformed) ∧
  (∀ m : Memory, loadStream m none = .error .unreadable) ∧
  (∀ (m : Memory) (origin : Word) (ws : List Word) (odd : List Byte), odd.length ≤ 1 →
    65536 < origin.toNat + ws.length → loadStream m (some (imageBytes origin ws ++ odd)) = .error .overflow) ∧
  ∀ (m : Memory) (image : Option (List Byte)) (rest : List (Option (List Byte))) (e : LoadError),
    loadStream m image = .error e → loadAll m (image :: rest) = ((loadAll m rest).1, some e :: (loadAll m rest).2)

/-- From R253, R254, R255: execution starts exactly when every image loads, from the construction (R250) with memory as
the images leave it, in the order given, and nothing else changed by the loads; otherwise the host is given the result of
each image in its place. A machine that has taken a step is no argument of boot: no image reaches it (log 13). -/
def Obligations.BootNeedsEveryImage : Prop :=
  ∀ (g : Vector Word 8) (c : Word) (i : List Arrival) (e : Option Byte) (k : Option Nat) (images : List (Option (List Byte))),
    ((∃ t, boot g c i e k images = .ok t) ↔
      ∀ image ∈ images, ∃ h l payload, image = some (h :: l :: payload) ∧
        256 * h.toNat + l.toNat + payload.length / 2 ≤ 65536) ∧
    (∀ t : State, boot g c i e k images = .ok t →
      t = { State.construct g c i e k with mem := (loadAll [] images).1 }) ∧
    ∀ rs : List (Option LoadError), boot g c i e k images = .error rs →
      rs = (loadAll [] images).2 ∧ rs = images.map imageResult

/-- From R254: images are applied in the order given, so that a later one overwrites an earlier one where they meet. -/
def Obligations.LaterImagesOverwriteEarlier : Prop :=
  ∀ (m : Memory) (first : List (Option (List Byte))) (origin : Word) (ws : List Word),
    origin.toNat + ws.length ≤ 65536 →
    (∀ (j : Nat) (h : j < ws.length),
      Memory.read (loadAll m (first ++ [some (imageBytes origin ws)])).1 (BitVec.ofNat 16 (origin.toNat + j)) = ws[j]) ∧
    (∀ a : Word, a.toNat < origin.toNat ∨ origin.toNat + ws.length ≤ a.toNat →
      Memory.read (loadAll m (first ++ [some (imageBytes origin ws)])).1 a = Memory.read (loadAll m first).1 a)
end

