-- ==== Sys2Proof/Laws/PerInstr.lean ====
section
/-! SUPPORT. The family of statements made instruction by instruction: the opcode field of an instruction's word is the
number that 30_encoding.md R82 gives its mnemonic. -/

namespace Sys2Proof

/-- The opcode map of R82, from instruction to number. -/
def opcodeNumber : Instr → BitVec 4
  | .addReg _ _ _ => 1
  | .addImm _ _ _ => 1
  | .andReg _ _ _ => 5
  | .andImm _ _ _ => 5
  | .not _ _ => 9
  | .br _ _ _ _ => 0
  | .jmp _ => 12
  | .ret => 12
  | .jsr _ => 4
  | .jsrr _ => 4
  | .ld _ _ => 2
  | .ldi _ _ => 10
  | .ldr _ _ _ => 6
  | .lea _ _ => 14
  | .st _ _ => 3
  | .sti _ _ => 11
  | .str _ _ _ => 7
  | .trap _ => 15
  | .getc => 15
  | .out => 15
  | .puts => 15
  | .inChar => 15
  | .putsp => 15
  | .halt => 15
  | .rti => 8
  | .res => 13

/-- The word of an instruction carries its opcode number in bits 15:12 (R81, R82). -/
def Laws.EncodeOpcode.Statement (i : Instr) : Prop := opcodeField (encode i) = opcodeNumber i

namespace Laws.EncodeOpcode

theorem addReg (dr : Reg) (sr1 : Reg) (sr2 : Reg) : Statement (.addReg dr sr1 sr2) := by
  simp (disch := omega) only [Statement, opcodeField, encode, BitVec.extractLsb'_append_eq_of_le]
  rfl

theorem addImm (dr : Reg) (sr1 : Reg) (imm5 : BitVec 5) : Statement (.addImm dr sr1 imm5) := by
  simp (disch := omega) only [Statement, opcodeField, encode, BitVec.extractLsb'_append_eq_of_le]
  rfl

theorem andReg (dr : Reg) (sr1 : Reg) (sr2 : Reg) : Statement (.andReg dr sr1 sr2) := by
  simp (disch := omega) only [Statement, opcodeField, encode, BitVec.extractLsb'_append_eq_of_le]
  rfl

theorem andImm (dr : Reg) (sr1 : Reg) (imm5 : BitVec 5) : Statement (.andImm dr sr1 imm5) := by
  simp (disch := omega) only [Statement, opcodeField, encode, BitVec.extractLsb'_append_eq_of_le]
  rfl

theorem not (dr : Reg) (sr : Reg) : Statement (.not dr sr) := by
  simp (disch := omega) only [Statement, opcodeField, encode, BitVec.extractLsb'_append_eq_of_le]
  rfl

theorem br (n : Bool) (z : Bool) (p : Bool) (off : BitVec 9) : Statement (.br n z p off) := by
  simp (disch := omega) only [Statement, opcodeField, encode, BitVec.extractLsb'_append_eq_of_le]
  rfl

theorem jmp (baseR : Reg) : Statement (.jmp baseR) := by
  simp (disch := omega) only [Statement, opcodeField, encode, BitVec.extractLsb'_append_eq_of_le]
  rfl

theorem ret : Statement (.ret) := rfl

theorem jsr (off : BitVec 11) : Statement (.jsr off) := by
  simp (disch := omega) only [Statement, opcodeField, encode, BitVec.extractLsb'_append_eq_of_le]
  rfl

theorem jsrr (baseR : Reg) : Statement (.jsrr baseR) := by
  simp (disch := omega) only [Statement, opcodeField, encode, BitVec.extractLsb'_append_eq_of_le]
  rfl

theorem ld (dr : Reg) (off : BitVec 9) : Statement (.ld dr off) := by
  simp (disch := omega) only [Statement, opcodeField, encode, BitVec.extractLsb'_append_eq_of_le]
  rfl

theorem ldi (dr : Reg) (off : BitVec 9) : Statement (.ldi dr off) := by
  simp (disch := omega) only [Statement, opcodeField, encode, BitVec.extractLsb'_append_eq_of_le]
  rfl

theorem ldr (dr : Reg) (baseR : Reg) (off : BitVec 6) : Statement (.ldr dr baseR off) := by
  simp (disch := omega) only [Statement, opcodeField, encode, BitVec.extractLsb'_append_eq_of_le]
  rfl

theorem lea (dr : Reg) (off : BitVec 9) : Statement (.lea dr off) := by
  simp (disch := omega) only [Statement, opcodeField, encode, BitVec.extractLsb'_append_eq_of_le]
  rfl

theorem st (sr : Reg) (off : BitVec 9) : Statement (.st sr off) := by
  simp (disch := omega) only [Statement, opcodeField, encode, BitVec.extractLsb'_append_eq_of_le]
  rfl

theorem sti (sr : Reg) (off : BitVec 9) : Statement (.sti sr off) := by
  simp (disch := omega) only [Statement, opcodeField, encode, BitVec.extractLsb'_append_eq_of_le]
  rfl

theorem str (sr : Reg) (baseR : Reg) (off : BitVec 6) : Statement (.str sr baseR off) := by
  simp (disch := omega) only [Statement, opcodeField, encode, BitVec.extractLsb'_append_eq_of_le]
  rfl

theorem trap (v : BitVec 8) : Statement (.trap v) := by
  simp (disch := omega) only [Statement, opcodeField, encode, trapWord, BitVec.extractLsb'_append_eq_of_le]
  rfl

theorem getc : Statement (.getc) := rfl

theorem out : Statement (.out) := rfl

theorem puts : Statement (.puts) := rfl

theorem inChar : Statement (.inChar) := rfl

theorem putsp : Statement (.putsp) := rfl

theorem halt : Statement (.halt) := rfl

theorem rti : Statement (.rti) := rfl

theorem res : Statement (.res) := rfl

end Laws.EncodeOpcode

end Sys2Proof
end

