-- ==== Sys2Proof/Laws/Decode.lean ====
section
/-! SUPPORT. The decoder one opcode at a time, and its fields read back out of an encoder's word. -/

namespace Sys2Proof

/-! ### One opcode at a time (30_encoding.md R82) -/

variable {ir : Word}

theorem decode_opcode_0 (h : opcodeField ir = 0) :
    decode ir = .br (ir.getLsbD 11) (ir.getLsbD 10) (ir.getLsbD 9) (pcOffset9Field ir) := by simp [decode, h]
theorem decode_opcode_1 (h : opcodeField ir = 1) :
    decode ir = if ir.getLsbD 5 then .addImm (regField ir 9) (regField ir 6) (imm5Field ir)
      else .addReg (regField ir 9) (regField ir 6) (regField ir 0) := by simp [decode, h]
theorem decode_opcode_2 (h : opcodeField ir = 2) : decode ir = .ld (regField ir 9) (pcOffset9Field ir) := by
  simp [decode, h]
theorem decode_opcode_3 (h : opcodeField ir = 3) : decode ir = .st (regField ir 9) (pcOffset9Field ir) := by
  simp [decode, h]
theorem decode_opcode_4 (h : opcodeField ir = 4) :
    decode ir = if ir.getLsbD 11 then .jsr (pcOffset11Field ir) else .jsrr (regField ir 6) := by simp [decode, h]
theorem decode_opcode_5 (h : opcodeField ir = 5) :
    decode ir = if ir.getLsbD 5 then .andImm (regField ir 9) (regField ir 6) (imm5Field ir)
      else .andReg (regField ir 9) (regField ir 6) (regField ir 0) := by simp [decode, h]
theorem decode_opcode_6 (h : opcodeField ir = 6) :
    decode ir = .ldr (regField ir 9) (regField ir 6) (offset6Field ir) := by simp [decode, h]
theorem decode_opcode_7 (h : opcodeField ir = 7) :
    decode ir = .str (regField ir 9) (regField ir 6) (offset6Field ir) := by simp [decode, h]
theorem decode_opcode_8 (h : opcodeField ir = 8) : decode ir = .rti := by simp [decode, h]
theorem decode_opcode_9 (h : opcodeField ir = 9) : decode ir = .not (regField ir 9) (regField ir 6) := by
  simp [decode, h]
theorem decode_opcode_10 (h : opcodeField ir = 10) : decode ir = .ldi (regField ir 9) (pcOffset9Field ir) := by
  simp [decode, h]
theorem decode_opcode_11 (h : opcodeField ir = 11) : decode ir = .sti (regField ir 9) (pcOffset9Field ir) := by
  simp [decode, h]
theorem decode_opcode_12 (h : opcodeField ir = 12) : decode ir = decodeJmp (regField ir 6) := by simp [decode, h]
theorem decode_opcode_13 (h : opcodeField ir = 13) : decode ir = .res := by simp [decode, h]
theorem decode_opcode_14 (h : opcodeField ir = 14) : decode ir = .lea (regField ir 9) (pcOffset9Field ir) := by
  simp [decode, h]
theorem decode_opcode_15 (h : opcodeField ir = 15) : decode ir = decodeTrap (trapvect8Field ir) := by simp [decode, h]

/-- The opcode field has one of its 16 values (R90). -/
theorem opcodeField_cases (ir : Word) :
    opcodeField ir = 0 ∨ opcodeField ir = 1 ∨ opcodeField ir = 2 ∨ opcodeField ir = 3 ∨ opcodeField ir = 4 ∨
    opcodeField ir = 5 ∨ opcodeField ir = 6 ∨ opcodeField ir = 7 ∨ opcodeField ir = 8 ∨ opcodeField ir = 9 ∨
    opcodeField ir = 10 ∨ opcodeField ir = 11 ∨ opcodeField ir = 12 ∨ opcodeField ir = 13 ∨ opcodeField ir = 14 ∨
    opcodeField ir = 15 := by
  generalize opcodeField ir = x
  revert x
  decide

/-! ### Registers and vectors -/

@[simp] theorem regBits_toFin (r : Reg) : (regBits r).toFin = r := rfl

@[simp] theorem regBits_regField (ir : Word) (lo : Nat) : regBits (regField ir lo) = ir.extractLsb' lo 3 := rfl

/-- What a JMP base selects (R132). -/
theorem decodeJmp_cases (r : Reg) :
    (r = retBase ∧ decodeJmp r = .ret) ∨ (r ≠ retBase ∧ decodeJmp r = .jmp r) := by
  unfold decodeJmp
  by_cases h : r = retBase <;> simp [h]

/-- What a TRAP vector selects (R182). -/
theorem decodeTrap_cases (v : BitVec 8) :
    (v = Config.trapGetc ∧ decodeTrap v = .getc) ∨ (v = Config.trapOut ∧ decodeTrap v = .out) ∨
    (v = Config.trapPuts ∧ decodeTrap v = .puts) ∨ (v = Config.trapIn ∧ decodeTrap v = .inChar) ∨
    (v = Config.trapPutsp ∧ decodeTrap v = .putsp) ∨ (v = Config.trapHalt ∧ decodeTrap v = .halt) ∨
    (isRoutineVector v = false ∧ decodeTrap v = .trap v) := by
  unfold decodeTrap
  split
  · next h => exact .inl ⟨h, rfl⟩
  split
  · next h => exact .inr (.inl ⟨h, rfl⟩)
  split
  · next h => exact .inr (.inr (.inl ⟨h, rfl⟩))
  split
  · next h => exact .inr (.inr (.inr (.inl ⟨h, rfl⟩)))
  split
  · next h => exact .inr (.inr (.inr (.inr (.inl ⟨h, rfl⟩))))
  split
  · next h => exact .inr (.inr (.inr (.inr (.inr (.inl ⟨h, rfl⟩)))))
  · exact .inr (.inr (.inr (.inr (.inr (.inr ⟨by simp_all [isRoutineVector], rfl⟩)))))

end Sys2Proof
end

