-- ==== Sys2Proof/Laws/Memory.lean ====
section
/-! SUPPORT. The laws of memory: a read after a write (20_memory.md R54, R61), and that the canonical form is kept. -/

namespace Sys2Proof.Machine

theorem Memory.lookup_erase_same (m : Memory) (a : Nat) : Memory.lookup (Memory.erase m a) a = Config.memUnlisted := by
  induction m with
  | nil => rfl
  | cons c rest ih =>
    obtain ⟨k, v⟩ := c
    by_cases h : k = a
    · simpa [Memory.erase, h] using ih
    · have : Memory.erase ((k, v) :: rest) a = (k, v) :: Memory.erase rest a := by simp [Memory.erase, h]
      rw [this, Memory.lookup, if_neg h, ih]

theorem Memory.lookup_erase_other (m : Memory) {a b : Nat} (hb : b ≠ a) :
    Memory.lookup (Memory.erase m a) b = Memory.lookup m b := by
  induction m with
  | nil => rfl
  | cons c rest ih =>
    obtain ⟨k, v⟩ := c
    by_cases h : k = a
    · have : Memory.erase ((k, v) :: rest) a = Memory.erase rest a := by simp [Memory.erase, h]
      rw [this, ih, Memory.lookup, if_neg (fun e => hb (e.symm.trans h))]
    · have : Memory.erase ((k, v) :: rest) a = (k, v) :: Memory.erase rest a := by simp [Memory.erase, h]
      rw [this, Memory.lookup, Memory.lookup, ih]

theorem Memory.lookup_insertCell (m : Memory) (a b : Nat) (v : Word) (hm : ∀ c ∈ m, c.1 ≠ a) :
    Memory.lookup (Memory.insertCell a v m) b = if b = a then v else Memory.lookup m b := by
  induction m with
  | nil =>
    by_cases h : b = a
    · simp [Memory.insertCell, Memory.lookup, h]
    · simp [Memory.insertCell, Memory.lookup, h, Ne.symm h]
  | cons c rest ih =>
    obtain ⟨k, w⟩ := c
    have hk : k ≠ a := hm (k, w) (by simp)
    have ih := ih fun c hc => hm c (by simp [hc])
    by_cases hlt : a < k
    · simp only [Memory.insertCell, if_pos hlt, Memory.lookup]
      by_cases h : b = a
      · simp [h]
      · simp [h, Ne.symm h]
    · simp only [Memory.insertCell, if_neg hlt, Memory.lookup, ih]
      by_cases h : b = a
      · subst h; simp [hk]
      · simp [h]

theorem Memory.erase_ne (m : Memory) (a : Nat) : ∀ c ∈ Memory.erase m a, c.1 ≠ a := by
  simp [Memory.erase]

/-- A read after a write to the same place gives the word written. -/
@[simp] theorem Memory.read_write_same (m : Memory) (a v : Word) : (m.write a v).read a = v := by
  unfold Memory.read Memory.write
  split
  · next h => rw [Memory.lookup_erase_same, h]
  · rw [Memory.lookup_insertCell _ _ _ _ (Memory.erase_ne m _), if_pos rfl]

/-- A write leaves every other place alone. -/
theorem Memory.read_write_other (m : Memory) {a b : Word} (v : Word) (hb : b ≠ a) : (m.write a v).read b = m.read b := by
  have hn : b.toNat ≠ a.toNat := fun e => hb (BitVec.eq_of_toNat_eq e)
  unfold Memory.read Memory.write
  split
  · exact Memory.lookup_erase_other m hn
  · rw [Memory.lookup_insertCell _ _ _ _ (Memory.erase_ne m _), if_neg hn, Memory.lookup_erase_other m hn]

theorem Memory.read_write (m : Memory) (a b v : Word) : (m.write a v).read b = if b = a then v else m.read b := by
  split
  · next h => rw [h, Memory.read_write_same]
  · next h => exact Memory.read_write_other m v h

theorem Memory.mem_insertCell (m : Memory) (a : Nat) (v : Word) (c : Cell) :
    c ∈ Memory.insertCell a v m ↔ c = (a, v) ∨ c ∈ m := by
  induction m with
  | nil => simp [Memory.insertCell]
  | cons d rest ih =>
    simp only [Memory.insertCell]
    split
    · simp
    · simp only [List.mem_cons, ih]; tauto

theorem Memory.wf_erase {m : Memory} (h : Memory.wf m) (a : Nat) : Memory.wf (Memory.erase m a) :=
  ⟨h.1.sublist List.filter_sublist, fun c hc => h.2 c (List.mem_of_mem_filter hc)⟩

theorem Memory.wf_insertCell {m : Memory} (h : Memory.wf m) {a : Nat} {v : Word} (ha : a < 65536)
    (hv : v ≠ Config.memUnlisted) (hm : ∀ c ∈ m, c.1 ≠ a) : Memory.wf (Memory.insertCell a v m) := by
  refine ⟨?_, fun c hc => ?_⟩
  · obtain ⟨hs, -⟩ := h
    induction m with
    | nil => simp [Memory.insertCell]
    | cons d rest ih =>
      have hd := List.pairwise_cons.mp hs
      simp only [Memory.insertCell]
      split
      · next hlt =>
        refine List.pairwise_cons.mpr ⟨fun c hc => ?_, hs⟩
        rcases List.mem_cons.mp hc with rfl | hc
        · exact hlt
        · exact Nat.lt_trans hlt (hd.1 c hc)
      · next hlt =>
        refine List.pairwise_cons.mpr ⟨fun c hc => ?_, ih (fun c hc => hm c (by simp [hc])) hd.2⟩
        rcases (Memory.mem_insertCell _ _ _ _).mp hc with rfl | hc
        · have := hm d (by simp)
          simp only; omega
        · exact hd.1 c hc
  · rcases (Memory.mem_insertCell _ _ _ _).mp hc with rfl | hc
    · exact ⟨ha, hv⟩
    · exact h.2 c hc

/-- Every write keeps the canonical form. -/
theorem Memory.wf_write {m : Memory} (h : Memory.wf m) (a v : Word) : Memory.wf (m.write a v) := by
  unfold Memory.write
  split
  · exact Memory.wf_erase h _
  · next hv => exact Memory.wf_insertCell (Memory.wf_erase h _) a.isLt hv (Memory.erase_ne m _)

/-- Memory with nothing listed is in the canonical form, and every word of it reads as `Config.memUnlisted`. -/
theorem Memory.wf_nil : Memory.wf [] := ⟨List.Pairwise.nil, by simp⟩

@[simp] theorem Memory.read_nil (a : Word) : Memory.read [] a = Config.memUnlisted := rfl

theorem State.reset_mem_wf : Memory.wf State.reset.mem := Memory.wf_nil

theorem Memory.lookup_of_lt {m : Memory} {a : Nat} (h : ∀ c ∈ m, a < c.1) : Memory.lookup m a = Config.memUnlisted := by
  induction m with
  | nil => rfl
  | cons c rest ih =>
    have hc := h c (by simp)
    rw [Memory.lookup, if_neg (by omega), ih fun d hd => h d (by simp [hd])]

theorem Memory.eq_of_lookup_eq {m n : Memory} (hm : Memory.wf m) (hn : Memory.wf n)
    (h : ∀ a < 65536, Memory.lookup m a = Memory.lookup n a) : m = n := by
  induction m generalizing n with
  | nil =>
    cases n with
    | nil => rfl
    | cons d n =>
      obtain ⟨k, w⟩ := d
      have hd := hn.2 _ (List.mem_cons_self ..)
      have := h k hd.1
      simp only [Memory.lookup, if_true] at this
      exact absurd this.symm hd.2
  | cons c m ih =>
    obtain ⟨j, v⟩ := c
    have hc := hm.2 _ (List.mem_cons_self ..)
    have hm' := List.pairwise_cons.mp hm.1
    cases n with
    | nil =>
      have := h j hc.1
      simp only [Memory.lookup, if_true] at this
      exact absurd this hc.2
    | cons d n =>
      obtain ⟨k, w⟩ := d
      have hd := hn.2 _ (List.mem_cons_self ..)
      have hn' := List.pairwise_cons.mp hn.1
      have hjk : j = k := by
        by_contra hne
        rcases Nat.lt_or_gt_of_ne hne with hlt | hlt
        · have := h j hc.1
          rw [Memory.lookup, if_pos rfl, Memory.lookup, if_neg (Ne.symm hne),
            Memory.lookup_of_lt fun e he => Nat.lt_trans hlt (hn'.1 e he)] at this
          exact hc.2 this
        · have := h k hd.1
          rw [Memory.lookup, if_neg hne, Memory.lookup, if_pos rfl,
            Memory.lookup_of_lt fun e he => Nat.lt_trans hlt (hm'.1 e he)] at this
          exact hd.2 this.symm
      subst hjk
      have hvw : v = w := by simpa [Memory.lookup] using h j hc.1
      subst hvw
      congr 1
      refine ih ⟨hm'.2, fun e he => hm.2 e (by simp [he])⟩ ⟨hn'.2, fun e he => hn.2 e (by simp [he])⟩ fun a ha => ?_
      by_cases haj : j = a
      · subst haj
        rw [Memory.lookup_of_lt hm'.1, Memory.lookup_of_lt hn'.1]
      · simpa [Memory.lookup, haj] using h a ha

/-- Canonical memories that read the same everywhere are the same list: equal memories are equal data. -/
theorem Memory.eq_of_read_eq {m n : Memory} (hm : Memory.wf m) (hn : Memory.wf n) (h : ∀ a, m.read a = n.read a) : m = n :=
  Memory.eq_of_lookup_eq hm hn fun a ha => by
    simpa [Memory.read, Nat.mod_eq_of_lt ha] using h (BitVec.ofNat 16 a)

end Sys2Proof.Machine
end

