-- ==== Sys2Proof/Laws/State.lean ====
section
/-! SUPPORT. One lemma per field per update of the state, so that no later proof unfolds a record update. -/

namespace Sys2Proof.Machine

variable (s : State)

/-! ### setReg -/

@[simp] theorem State.setReg_regs (r : Reg) (v : Word) : (s.setReg r v).regs = s.regs.set r.val v := rfl
@[simp] theorem State.setReg_pc (r : Reg) (v : Word) : (s.setReg r v).pc = s.pc := rfl
@[simp] theorem State.setReg_cond (r : Reg) (v : Word) : (s.setReg r v).cond = s.cond := rfl
@[simp] theorem State.setReg_count (r : Reg) (v : Word) : (s.setReg r v).count = s.count := rfl
@[simp] theorem State.setReg_running (r : Reg) (v : Word) : (s.setReg r v).running = s.running := rfl
@[simp] theorem State.setReg_haltReason (r : Reg) (v : Word) : (s.setReg r v).haltReason = s.haltReason := rfl
@[simp] theorem State.setReg_mem (r : Reg) (v : Word) : (s.setReg r v).mem = s.mem := rfl
@[simp] theorem State.setReg_input (r : Reg) (v : Word) : (s.setReg r v).input = s.input := rfl
@[simp] theorem State.setReg_inputRest (r : Reg) (v : Word) : (s.setReg r v).inputRest = s.inputRest := rfl
@[simp] theorem State.setReg_sinkLimit (r : Reg) (v : Word) : (s.setReg r v).sinkLimit = s.sinkLimit := rfl
@[simp] theorem State.setReg_output (r : Reg) (v : Word) : (s.setReg r v).output = s.output := rfl
@[simp] theorem State.setReg_diag (r : Reg) (v : Word) : (s.setReg r v).diag = s.diag := rfl

/-- What a register reads after a register is written (00_scope.md R10). -/
@[simp] theorem State.setReg_reg (d r : Reg) (v : Word) : (s.setReg d v).reg r = if r = d then v else s.reg r := by
  unfold State.reg State.setReg
  rcases eq_or_ne r d with rfl | h
  · simp
  · rw [if_neg h, Vector.getElem_set_ne _ _ (fun e => h (Fin.ext e.symm))]

/-! ### setPc -/

@[simp] theorem State.setPc_regs (v : Word) : (s.setPc v).regs = s.regs := rfl
@[simp] theorem State.setPc_pc (v : Word) : (s.setPc v).pc = v := rfl
@[simp] theorem State.setPc_cond (v : Word) : (s.setPc v).cond = s.cond := rfl
@[simp] theorem State.setPc_count (v : Word) : (s.setPc v).count = s.count := rfl
@[simp] theorem State.setPc_running (v : Word) : (s.setPc v).running = s.running := rfl
@[simp] theorem State.setPc_haltReason (v : Word) : (s.setPc v).haltReason = s.haltReason := rfl
@[simp] theorem State.setPc_mem (v : Word) : (s.setPc v).mem = s.mem := rfl
@[simp] theorem State.setPc_input (v : Word) : (s.setPc v).input = s.input := rfl
@[simp] theorem State.setPc_inputRest (v : Word) : (s.setPc v).inputRest = s.inputRest := rfl
@[simp] theorem State.setPc_sinkLimit (v : Word) : (s.setPc v).sinkLimit = s.sinkLimit := rfl
@[simp] theorem State.setPc_output (v : Word) : (s.setPc v).output = s.output := rfl
@[simp] theorem State.setPc_diag (v : Word) : (s.setPc v).diag = s.diag := rfl
@[simp] theorem State.setPc_reg (v : Word) (r : Reg) : (s.setPc v).reg r = s.reg r := rfl

/-! ### setCond -/

@[simp] theorem State.setCond_regs (v : Word) : (s.setCond v).regs = s.regs := rfl
@[simp] theorem State.setCond_pc (v : Word) : (s.setCond v).pc = s.pc := rfl
@[simp] theorem State.setCond_cond (v : Word) : (s.setCond v).cond = v := rfl
@[simp] theorem State.setCond_count (v : Word) : (s.setCond v).count = s.count := rfl
@[simp] theorem State.setCond_running (v : Word) : (s.setCond v).running = s.running := rfl
@[simp] theorem State.setCond_haltReason (v : Word) : (s.setCond v).haltReason = s.haltReason := rfl
@[simp] theorem State.setCond_mem (v : Word) : (s.setCond v).mem = s.mem := rfl
@[simp] theorem State.setCond_input (v : Word) : (s.setCond v).input = s.input := rfl
@[simp] theorem State.setCond_inputRest (v : Word) : (s.setCond v).inputRest = s.inputRest := rfl
@[simp] theorem State.setCond_sinkLimit (v : Word) : (s.setCond v).sinkLimit = s.sinkLimit := rfl
@[simp] theorem State.setCond_output (v : Word) : (s.setCond v).output = s.output := rfl
@[simp] theorem State.setCond_diag (v : Word) : (s.setCond v).diag = s.diag := rfl
@[simp] theorem State.setCond_reg (v : Word) (r : Reg) : (s.setCond v).reg r = s.reg r := rfl

/-! ### setMem -/

@[simp] theorem State.setMem_regs (m : Memory) : (s.setMem m).regs = s.regs := rfl
@[simp] theorem State.setMem_pc (m : Memory) : (s.setMem m).pc = s.pc := rfl
@[simp] theorem State.setMem_cond (m : Memory) : (s.setMem m).cond = s.cond := rfl
@[simp] theorem State.setMem_count (m : Memory) : (s.setMem m).count = s.count := rfl
@[simp] theorem State.setMem_running (m : Memory) : (s.setMem m).running = s.running := rfl
@[simp] theorem State.setMem_haltReason (m : Memory) : (s.setMem m).haltReason = s.haltReason := rfl
@[simp] theorem State.setMem_mem (m : Memory) : (s.setMem m).mem = m := rfl
@[simp] theorem State.setMem_input (m : Memory) : (s.setMem m).input = s.input := rfl
@[simp] theorem State.setMem_inputRest (m : Memory) : (s.setMem m).inputRest = s.inputRest := rfl
@[simp] theorem State.setMem_sinkLimit (m : Memory) : (s.setMem m).sinkLimit = s.sinkLimit := rfl
@[simp] theorem State.setMem_output (m : Memory) : (s.setMem m).output = s.output := rfl
@[simp] theorem State.setMem_diag (m : Memory) : (s.setMem m).diag = s.diag := rfl
@[simp] theorem State.setMem_reg (m : Memory) (r : Reg) : (s.setMem m).reg r = s.reg r := rfl

/-! ### setInput -/

@[simp] theorem State.setInput_regs (i : List Arrival) : (s.setInput i).regs = s.regs := rfl
@[simp] theorem State.setInput_pc (i : List Arrival) : (s.setInput i).pc = s.pc := rfl
@[simp] theorem State.setInput_cond (i : List Arrival) : (s.setInput i).cond = s.cond := rfl
@[simp] theorem State.setInput_count (i : List Arrival) : (s.setInput i).count = s.count := rfl
@[simp] theorem State.setInput_running (i : List Arrival) : (s.setInput i).running = s.running := rfl
@[simp] theorem State.setInput_haltReason (i : List Arrival) : (s.setInput i).haltReason = s.haltReason := rfl
@[simp] theorem State.setInput_mem (i : List Arrival) : (s.setInput i).mem = s.mem := rfl
@[simp] theorem State.setInput_input (i : List Arrival) : (s.setInput i).input = i := rfl
@[simp] theorem State.setInput_inputRest (i : List Arrival) : (s.setInput i).inputRest = s.inputRest := rfl
@[simp] theorem State.setInput_sinkLimit (i : List Arrival) : (s.setInput i).sinkLimit = s.sinkLimit := rfl
@[simp] theorem State.setInput_output (i : List Arrival) : (s.setInput i).output = s.output := rfl
@[simp] theorem State.setInput_diag (i : List Arrival) : (s.setInput i).diag = s.diag := rfl
@[simp] theorem State.setInput_reg (i : List Arrival) (r : Reg) : (s.setInput i).reg r = s.reg r := rfl

/-! ### setSinkLimit -/

@[simp] theorem State.setSinkLimit_regs (n : Option Nat) : (s.setSinkLimit n).regs = s.regs := rfl
@[simp] theorem State.setSinkLimit_pc (n : Option Nat) : (s.setSinkLimit n).pc = s.pc := rfl
@[simp] theorem State.setSinkLimit_cond (n : Option Nat) : (s.setSinkLimit n).cond = s.cond := rfl
@[simp] theorem State.setSinkLimit_count (n : Option Nat) : (s.setSinkLimit n).count = s.count := rfl
@[simp] theorem State.setSinkLimit_running (n : Option Nat) : (s.setSinkLimit n).running = s.running := rfl
@[simp] theorem State.setSinkLimit_haltReason (n : Option Nat) : (s.setSinkLimit n).haltReason = s.haltReason := rfl
@[simp] theorem State.setSinkLimit_mem (n : Option Nat) : (s.setSinkLimit n).mem = s.mem := rfl
@[simp] theorem State.setSinkLimit_input (n : Option Nat) : (s.setSinkLimit n).input = s.input := rfl
@[simp] theorem State.setSinkLimit_inputRest (n : Option Nat) : (s.setSinkLimit n).inputRest = s.inputRest := rfl
@[simp] theorem State.setSinkLimit_sinkLimit (n : Option Nat) : (s.setSinkLimit n).sinkLimit = n := rfl
@[simp] theorem State.setSinkLimit_output (n : Option Nat) : (s.setSinkLimit n).output = s.output := rfl
@[simp] theorem State.setSinkLimit_diag (n : Option Nat) : (s.setSinkLimit n).diag = s.diag := rfl
@[simp] theorem State.setSinkLimit_reg (n : Option Nat) (r : Reg) : (s.setSinkLimit n).reg r = s.reg r := rfl

/-! ### emit -/

@[simp] theorem State.emit_regs (es : List OutEvent) : (s.emit es).regs = s.regs := rfl
@[simp] theorem State.emit_pc (es : List OutEvent) : (s.emit es).pc = s.pc := rfl
@[simp] theorem State.emit_cond (es : List OutEvent) : (s.emit es).cond = s.cond := rfl
@[simp] theorem State.emit_count (es : List OutEvent) : (s.emit es).count = s.count := rfl
@[simp] theorem State.emit_running (es : List OutEvent) : (s.emit es).running = s.running := rfl
@[simp] theorem State.emit_haltReason (es : List OutEvent) : (s.emit es).haltReason = s.haltReason := rfl
@[simp] theorem State.emit_mem (es : List OutEvent) : (s.emit es).mem = s.mem := rfl
@[simp] theorem State.emit_input (es : List OutEvent) : (s.emit es).input = s.input := rfl
@[simp] theorem State.emit_inputRest (es : List OutEvent) : (s.emit es).inputRest = s.inputRest := rfl
@[simp] theorem State.emit_sinkLimit (es : List OutEvent) : (s.emit es).sinkLimit = s.sinkLimit := rfl
@[simp] theorem State.emit_output (es : List OutEvent) : (s.emit es).output = s.output ++ es := rfl
@[simp] theorem State.emit_diag (es : List OutEvent) : (s.emit es).diag = s.diag := rfl
@[simp] theorem State.emit_reg (es : List OutEvent) (r : Reg) : (s.emit es).reg r = s.reg r := rfl

/-! ### diagnose -/

@[simp] theorem State.diagnose_regs (text : List Byte) : (s.diagnose text).regs = s.regs := rfl
@[simp] theorem State.diagnose_pc (text : List Byte) : (s.diagnose text).pc = s.pc := rfl
@[simp] theorem State.diagnose_cond (text : List Byte) : (s.diagnose text).cond = s.cond := rfl
@[simp] theorem State.diagnose_count (text : List Byte) : (s.diagnose text).count = s.count := rfl
@[simp] theorem State.diagnose_running (text : List Byte) : (s.diagnose text).running = s.running := rfl
@[simp] theorem State.diagnose_haltReason (text : List Byte) : (s.diagnose text).haltReason = s.haltReason := rfl
@[simp] theorem State.diagnose_mem (text : List Byte) : (s.diagnose text).mem = s.mem := rfl
@[simp] theorem State.diagnose_input (text : List Byte) : (s.diagnose text).input = s.input := rfl
@[simp] theorem State.diagnose_inputRest (text : List Byte) : (s.diagnose text).inputRest = s.inputRest := rfl
@[simp] theorem State.diagnose_sinkLimit (text : List Byte) : (s.diagnose text).sinkLimit = s.sinkLimit := rfl
@[simp] theorem State.diagnose_output (text : List Byte) : (s.diagnose text).output = s.output := rfl
@[simp] theorem State.diagnose_diag (text : List Byte) : (s.diagnose text).diag = s.diag ++ [text] := rfl
@[simp] theorem State.diagnose_reg (text : List Byte) (r : Reg) : (s.diagnose text).reg r = s.reg r := rfl

/-! ### raise -/

@[simp] theorem State.raise_regs (e : HaltReason) : (s.raise e).regs = s.regs := rfl
@[simp] theorem State.raise_pc (e : HaltReason) : (s.raise e).pc = s.pc := rfl
@[simp] theorem State.raise_cond (e : HaltReason) : (s.raise e).cond = s.cond := rfl
@[simp] theorem State.raise_count (e : HaltReason) : (s.raise e).count = s.count := rfl
@[simp] theorem State.raise_running (e : HaltReason) : (s.raise e).running = false := rfl
@[simp] theorem State.raise_haltReason (e : HaltReason) : (s.raise e).haltReason = some e := rfl
@[simp] theorem State.raise_mem (e : HaltReason) : (s.raise e).mem = s.mem := rfl
@[simp] theorem State.raise_input (e : HaltReason) : (s.raise e).input = s.input := rfl
@[simp] theorem State.raise_inputRest (e : HaltReason) : (s.raise e).inputRest = s.inputRest := rfl
@[simp] theorem State.raise_sinkLimit (e : HaltReason) : (s.raise e).sinkLimit = s.sinkLimit := rfl
@[simp] theorem State.raise_output (e : HaltReason) : (s.raise e).output = s.output := rfl
@[simp] theorem State.raise_diag (e : HaltReason) : (s.raise e).diag = s.diag := rfl
@[simp] theorem State.raise_reg (e : HaltReason) (r : Reg) : (s.raise e).reg r = s.reg r := rfl

/-! ### setcc and writeResult -/

@[simp] theorem setcc_regs (v : Word) : (setcc v s).regs = s.regs := rfl
@[simp] theorem setcc_pc (v : Word) : (setcc v s).pc = s.pc := rfl
@[simp] theorem setcc_cond (v : Word) : (setcc v s).cond = condOf v := rfl
@[simp] theorem setcc_count (v : Word) : (setcc v s).count = s.count := rfl
@[simp] theorem setcc_running (v : Word) : (setcc v s).running = s.running := rfl
@[simp] theorem setcc_haltReason (v : Word) : (setcc v s).haltReason = s.haltReason := rfl
@[simp] theorem setcc_mem (v : Word) : (setcc v s).mem = s.mem := rfl
@[simp] theorem setcc_input (v : Word) : (setcc v s).input = s.input := rfl
@[simp] theorem setcc_inputRest (v : Word) : (setcc v s).inputRest = s.inputRest := rfl
@[simp] theorem setcc_sinkLimit (v : Word) : (setcc v s).sinkLimit = s.sinkLimit := rfl
@[simp] theorem setcc_output (v : Word) : (setcc v s).output = s.output := rfl
@[simp] theorem setcc_diag (v : Word) : (setcc v s).diag = s.diag := rfl
@[simp] theorem setcc_reg (v : Word) (r : Reg) : (setcc v s).reg r = s.reg r := rfl

@[simp] theorem writeResult_regs (d : Reg) (v : Word) : (writeResult d v s).regs = s.regs.set d.val v := rfl
@[simp] theorem writeResult_pc (d : Reg) (v : Word) : (writeResult d v s).pc = s.pc := rfl
@[simp] theorem writeResult_cond (d : Reg) (v : Word) : (writeResult d v s).cond = condOf v := rfl
@[simp] theorem writeResult_count (d : Reg) (v : Word) : (writeResult d v s).count = s.count := rfl
@[simp] theorem writeResult_running (d : Reg) (v : Word) : (writeResult d v s).running = s.running := rfl
@[simp] theorem writeResult_haltReason (d : Reg) (v : Word) : (writeResult d v s).haltReason = s.haltReason := rfl
@[simp] theorem writeResult_mem (d : Reg) (v : Word) : (writeResult d v s).mem = s.mem := rfl
@[simp] theorem writeResult_input (d : Reg) (v : Word) : (writeResult d v s).input = s.input := rfl
@[simp] theorem writeResult_inputRest (d : Reg) (v : Word) : (writeResult d v s).inputRest = s.inputRest := rfl
@[simp] theorem writeResult_sinkLimit (d : Reg) (v : Word) : (writeResult d v s).sinkLimit = s.sinkLimit := rfl
@[simp] theorem writeResult_output (d : Reg) (v : Word) : (writeResult d v s).output = s.output := rfl
@[simp] theorem writeResult_diag (d : Reg) (v : Word) : (writeResult d v s).diag = s.diag := rfl
@[simp] theorem writeResult_reg (d r : Reg) (v : Word) : (writeResult d v s).reg r = if r = d then v else s.reg r := by
  simp [writeResult]

/-- Two states with the same fields are the same; the registers are compared one by one. -/
theorem State.ext_reg {s t : State} (hreg : ∀ r, s.reg r = t.reg r) (hpc : s.pc = t.pc) (hcond : s.cond = t.cond)
    (hcount : s.count = t.count) (hrun : s.running = t.running) (hhalt : s.haltReason = t.haltReason) (hmem : s.mem = t.mem)
    (hin : s.input = t.input) (hrest : s.inputRest = t.inputRest) (hsink : s.sinkLimit = t.sinkLimit)
    (hout : s.output = t.output) (hdiag : s.diag = t.diag) : s = t := by
  have hregs : s.regs = t.regs := Vector.ext fun i hi => hreg ⟨i, hi⟩
  cases s; cases t; simp_all

end Sys2Proof.Machine
end

