-- ==== Sys2Proof/Laws/Ops.lean ====
section
/-! SUPPORT. For each shared operation of Machine/Ops.lean, what it can do, said once. -/

namespace Sys2Proof.Machine

/-! ### The input source -/

/-- A poll answers the first arrival, or what the source answers for ever, and takes at most one arrival. -/
theorem inPoll_cases (s : State) :
    (∃ b rest, s.input = .byte b :: rest ∧ inPoll s = (some b, s.setInput rest)) ∨
    (∃ rest, s.input = .notYet :: rest ∧ inPoll s = (none, s.setInput rest)) ∨
    (s.input = [] ∧ inPoll s = (s.inputRest, s)) := by
  unfold inPoll
  split
  · next b rest h => exact .inl ⟨b, rest, h, rfl⟩
  · next rest h => exact .inr (.inl ⟨rest, h, rfl⟩)
  · next h => exact .inr (.inr ⟨h, rfl⟩)

/-- A poll changes nothing but the arrivals, and what is left of them is a tail of what was there. -/
theorem inPoll_state (s : State) : ∃ rest, rest <:+ s.input ∧ (inPoll s).2 = s.setInput rest := by
  rcases inPoll_cases s with ⟨b, rest, h, e⟩ | ⟨rest, h, e⟩ | ⟨h, e⟩
  · exact ⟨rest, h ▸ List.suffix_cons _ _, by rw [e]⟩
  · exact ⟨rest, h ▸ List.suffix_cons _ _, by rw [e]⟩
  · exact ⟨s.input, List.suffix_refl _, by rw [e]; rfl⟩

theorem nextByte_suffix {is : List Arrival} {b : Byte} {rest : List Arrival} (h : nextByte is = some (b, rest)) :
    rest <:+ is := by
  induction is with
  | nil => cases h
  | cons i is ih =>
    cases i with
    | byte c => cases h; exact List.suffix_cons _ _
    | notYet => exact (ih h).trans (List.suffix_cons _ _)

theorem nextByte_replicate_byte (n : Nat) (b : Byte) (rest : List Arrival) :
    nextByte (List.replicate n .notYet ++ .byte b :: rest) = some (b, rest) := by
  induction n with
  | zero => rfl
  | succ n ih => simpa [List.replicate_succ, nextByte] using ih

theorem nextByte_replicate (n : Nat) : nextByte (List.replicate n .notYet) = none := by
  induction n with
  | zero => rfl
  | succ n ih => simpa [List.replicate_succ, nextByte] using ih

/-- A blocking read changes nothing but the arrivals, and what is left of them is a tail of what was there. -/
theorem inRead_state {s t : State} {b : Byte} (h : inRead s = some (b, t)) :
    ∃ rest, rest <:+ s.input ∧ t = s.setInput rest := by
  unfold inRead at h
  split at h
  · next c rest e => cases h; exact ⟨rest, nextByte_suffix e, rfl⟩
  · obtain ⟨c, -, e⟩ := Option.map_eq_some_iff.mp h
    cases e; exact ⟨[], List.nil_suffix, rfl⟩

/-! ### The poll and the core's read -/

/-- The poll writes KBSR, and KBDR too exactly when there is a byte; nothing else changes but the arrivals (20_memory.md R53). -/
theorem poll_cases (s : State) :
    (∃ b, (inPoll s).1 = some b ∧ poll s = (inPoll s).2.setMem
      ((s.mem.write Config.kbdrAddr (zext16 b)).write Config.kbsrAddr Config.kbsrReady)) ∨
    ((inPoll s).1 = none ∧ poll s = (inPoll s).2.setMem (s.mem.write Config.kbsrAddr Config.kbsrNotReady)) := by
  obtain ⟨rest, -, e⟩ := inPoll_state s
  have hm : (inPoll s).2.mem = s.mem := by rw [e]; rfl
  unfold poll
  split
  · next b t h => exact .inl ⟨b, by rw [h], by rw [← hm, h]⟩
  · next t h => exact .inr ⟨by rw [h], by rw [← hm, h]⟩

/-- The poll changes nothing but memory and the arrivals. -/
theorem poll_state (s : State) : ∃ rest m, rest <:+ s.input ∧ poll s = (s.setInput rest).setMem m ∧
    (∀ a, a ≠ Config.kbsrAddr → a ≠ Config.kbdrAddr → m.read a = s.mem.read a) ∧ (Memory.wf s.mem → Memory.wf m) := by
  obtain ⟨rest, hr, e⟩ := inPoll_state s
  rcases poll_cases s with ⟨b, -, h⟩ | ⟨-, h⟩
  · exact ⟨rest, _, hr, by rw [h, e], fun a h1 h2 => by rw [Memory.read_write_other _ _ h1, Memory.read_write_other _ _ h2],
      fun w => Memory.wf_write (Memory.wf_write w _ _) _ _⟩
  · exact ⟨rest, _, hr, by rw [h, e], fun a h1 _ => by rw [Memory.read_write_other _ _ h1], fun w => Memory.wf_write w _ _⟩

/-- A read away from KBSR_ADDR is plain (R52, R55). -/
theorem memRead_plain {a : Word} (s : State) (h : a ≠ Config.kbsrAddr) : memRead a s = (s.mem.read a, s) := by
  simp [memRead, h]

/-- A read of KBSR_ADDR polls and then returns the word the poll left there (R52). -/
theorem memRead_status (s : State) : memRead Config.kbsrAddr s = ((poll s).mem.read Config.kbsrAddr, poll s) := by
  simp [memRead]

/-- What a read can do: it changes nothing but the arrivals, KBSR and KBDR. -/
theorem memRead_state (a : Word) (s : State) : ∃ rest m, rest <:+ s.input ∧ (memRead a s).2 = (s.setInput rest).setMem m ∧
    (∀ b, b ≠ Config.kbsrAddr → b ≠ Config.kbdrAddr → m.read b = s.mem.read b) ∧ (Memory.wf s.mem → Memory.wf m) := by
  by_cases h : a = Config.kbsrAddr
  · subst h
    rw [memRead_status]
    exact poll_state s
  · rw [memRead_plain s h]
    exact ⟨s.input, s.mem, List.suffix_refl _, rfl, fun _ _ _ => rfl, id⟩

/-- A read returns the word that stands at the address in the state it leaves. -/
theorem memRead_value (a : Word) (s : State) : (memRead a s).1 = (memRead a s).2.mem.read a := rfl

@[simp] theorem memRead_regs (a : Word) (s : State) : (memRead a s).2.regs = s.regs := by
  obtain ⟨_, _, -, e, -⟩ := memRead_state a s; rw [e]; rfl
@[simp] theorem memRead_pc (a : Word) (s : State) : (memRead a s).2.pc = s.pc := by
  obtain ⟨_, _, -, e, -⟩ := memRead_state a s; rw [e]; rfl
@[simp] theorem memRead_cond (a : Word) (s : State) : (memRead a s).2.cond = s.cond := by
  obtain ⟨_, _, -, e, -⟩ := memRead_state a s; rw [e]; rfl
@[simp] theorem memRead_count (a : Word) (s : State) : (memRead a s).2.count = s.count := by
  obtain ⟨_, _, -, e, -⟩ := memRead_state a s; rw [e]; rfl
@[simp] theorem memRead_running (a : Word) (s : State) : (memRead a s).2.running = s.running := by
  obtain ⟨_, _, -, e, -⟩ := memRead_state a s; rw [e]; rfl
@[simp] theorem memRead_haltReason (a : Word) (s : State) : (memRead a s).2.haltReason = s.haltReason := by
  obtain ⟨_, _, -, e, -⟩ := memRead_state a s; rw [e]; rfl
@[simp] theorem memRead_inputRest (a : Word) (s : State) : (memRead a s).2.inputRest = s.inputRest := by
  obtain ⟨_, _, -, e, -⟩ := memRead_state a s; rw [e]; rfl
@[simp] theorem memRead_sinkLimit (a : Word) (s : State) : (memRead a s).2.sinkLimit = s.sinkLimit := by
  obtain ⟨_, _, -, e, -⟩ := memRead_state a s; rw [e]; rfl
@[simp] theorem memRead_output (a : Word) (s : State) : (memRead a s).2.output = s.output := by
  obtain ⟨_, _, -, e, -⟩ := memRead_state a s; rw [e]; rfl
@[simp] theorem memRead_diag (a : Word) (s : State) : (memRead a s).2.diag = s.diag := by
  obtain ⟨_, _, -, e, -⟩ := memRead_state a s; rw [e]; rfl
@[simp] theorem memRead_reg (a : Word) (s : State) (r : Reg) : (memRead a s).2.reg r = s.reg r := by
  unfold State.reg; simp
theorem memRead_input (a : Word) (s : State) : (memRead a s).2.input <:+ s.input := by
  obtain ⟨_, _, h, e, -⟩ := memRead_state a s; rw [e]; exact h
theorem memRead_other (a b : Word) (s : State) (h1 : b ≠ Config.kbsrAddr) (h2 : b ≠ Config.kbdrAddr) :
    (memRead a s).2.mem.read b = s.mem.read b := by
  obtain ⟨_, _, -, e, h, -⟩ := memRead_state a s; rw [e]; exact h b h1 h2
theorem memRead_wf (a : Word) {s : State} (h : Memory.wf s.mem) : Memory.wf (memRead a s).2.mem := by
  obtain ⟨_, _, -, e, -, w⟩ := memRead_state a s; rw [e]; exact w h

/-! ### The output sink -/

/-- A sink that takes all of the bytes appends them all. -/
theorem outBytes_ok {bs : List Byte} {s : State} (h : ∀ k, s.sinkLimit = some k → bs.length ≤ k) :
    outBytes bs s = ((s.emit (bs.map .byte)).setSinkLimit (s.sinkLimit.map (· - bs.length)), true) := by
  cases hk : s.sinkLimit with
  | none => cases s; simp_all [outBytes, State.emit, State.setSinkLimit]
  | some k => simp [outBytes, hk, List.take_of_length_le (h k hk), h k hk]

/-- A sink that fails within the bytes takes those before the failure and no more (60_exceptions.md R242). -/
theorem outBytes_fail {bs : List Byte} {s : State} {k : Nat} (hk : s.sinkLimit = some k) (h : k < bs.length) :
    outBytes bs s = ((s.emit ((bs.take k).map .byte)).setSinkLimit (some 0), false) := by
  have : k - bs.length = 0 := by omega
  simp [outBytes, hk, this, h]

/-- Output changes nothing but the trace, to which it appends bytes, and the sink's limit. -/
theorem outBytes_state (bs : List Byte) (s : State) :
    ∃ (cs : List Byte) (n : Option Nat), (outBytes bs s).1 = (s.emit (cs.map .byte)).setSinkLimit n := by
  cases hk : s.sinkLimit with
  | none => exact ⟨bs, none, by cases s; simp_all [outBytes, State.emit, State.setSinkLimit]⟩
  | some k => exact ⟨bs.take k, some (k - bs.length), by simp [outBytes, hk]⟩

/-- `outBytes` is `OutByte` for each byte in turn, stopping at the first that fails (R242). -/
theorem outBytes_cons (b : Byte) (bs : List Byte) (s : State) :
    outBytes (b :: bs) s = if (outByte b s).2 then outBytes bs (outByte b s).1 else outByte b s := by
  cases hk : s.sinkLimit with
  | none => simp [outBytes, outByte, hk, State.emit]
  | some k =>
    cases k with
    | zero => simp [outBytes, outByte, hk]
    | succ k => simp [outBytes, outByte, hk, State.emit, State.setSinkLimit]

/-- A flush changes nothing but the trace and the sink's limit. -/
theorem outFlush_cases (s : State) :
    (s.sinkLimit = some 0 ∧ outFlush s = (s, false)) ∨
    ((∀ k, s.sinkLimit = some k → 1 ≤ k) ∧ outFlush s = ((s.emit [.flush]).setSinkLimit (s.sinkLimit.map (· - 1)), true)) := by
  cases hk : s.sinkLimit with
  | none => exact .inr ⟨by simp, by cases s; simp_all [outFlush, State.emit, State.setSinkLimit]⟩
  | some k =>
    cases k with
    | zero => exact .inl ⟨rfl, by simp [outFlush, hk]⟩
    | succ k => exact .inr ⟨by simp, by simp [outFlush, hk]⟩

/-! ### Fetch -/

/-- The fetch is a read at PC and the increment (30_encoding.md R91). -/
theorem fetch_eq (s : State) : fetch s = ((memRead s.pc s).1, (memRead s.pc s).2.setPc (s.pc + 1)) := by
  simp [fetch]

end Sys2Proof.Machine
end

