-- ==== Sys2Proof/Laws/Trap.lean ====
section
/-! SUPPORT. What a trap routine can do, said once for all of them (43_trap.md R180 to R191). -/

namespace Sys2Proof.Machine

/-- What every routine leaves alone, and how it may extend the rest: R0 and COND are said apart. -/
structure RoutineFrame (s t : State) : Prop where
  regs : ∀ r, r ≠ trapReg → t.reg r = s.reg r
  pc : t.pc = s.pc
  count : t.count = s.count
  inputRest : t.inputRest = s.inputRest
  diag : t.diag = s.diag
  mem : ∀ a, a ≠ Config.kbsrAddr → a ≠ Config.kbdrAddr → t.mem.read a = s.mem.read a
  wf : Memory.wf s.mem → Memory.wf t.mem
  input : t.input <:+ s.input
  output : ∃ es, t.output = s.output ++ es ∧ OutEvent.rawEnter ∉ es ∧ OutEvent.rawRestore ∉ es

/-- Neither R0 nor COND is written, and the machine runs on. -/
structure QuietFrame (s t : State) : Prop extends RoutineFrame s t where
  reg0 : t.reg trapReg = s.reg trapReg
  cond : t.cond = s.cond
  running : t.running = s.running
  haltReason : t.haltReason = s.haltReason

theorem RoutineFrame.trans {s t u : State} (h : RoutineFrame s t) (k : RoutineFrame t u) : RoutineFrame s u where
  regs r hr := (k.regs r hr).trans (h.regs r hr)
  pc := k.pc.trans h.pc
  count := k.count.trans h.count
  inputRest := k.inputRest.trans h.inputRest
  diag := k.diag.trans h.diag
  mem a h1 h2 := (k.mem a h1 h2).trans (h.mem a h1 h2)
  wf w := k.wf (h.wf w)
  input := k.input.trans h.input
  output := by
    obtain ⟨es, he, h1, h2⟩ := h.output
    obtain ⟨fs, hf, k1, k2⟩ := k.output
    exact ⟨es ++ fs, by rw [hf, he, List.append_assoc], by simp [h1, k1], by simp [h2, k2]⟩

theorem QuietFrame.refl (s : State) : QuietFrame s s where
  regs _ _ := rfl
  pc := rfl
  count := rfl
  inputRest := rfl
  diag := rfl
  mem _ _ _ := rfl
  wf := id
  input := List.suffix_refl _
  output := ⟨[], by simp⟩
  reg0 := rfl
  cond := rfl
  running := rfl
  haltReason := rfl

theorem QuietFrame.trans {s t u : State} (h : QuietFrame s t) (k : QuietFrame t u) : QuietFrame s u :=
  ⟨h.toRoutineFrame.trans k.toRoutineFrame, k.reg0.trans h.reg0, k.cond.trans h.cond, k.running.trans h.running,
    k.haltReason.trans h.haltReason⟩

/-- A read of memory is quiet. -/
theorem quiet_memRead (a : Word) (s : State) : QuietFrame s (memRead a s).2 where
  regs r _ := by simp
  pc := by simp
  count := by simp
  inputRest := by simp
  diag := by simp
  mem b h1 h2 := memRead_other a b s h1 h2
  wf := memRead_wf a
  input := memRead_input a s
  output := ⟨[], by simp⟩
  reg0 := by simp
  cond := by simp
  running := by simp
  haltReason := by simp

/-- Events that are no bracket, and another limit of the sink, are quiet. -/
theorem quiet_emit (s : State) (es : List OutEvent) (n : Option Nat) (h1 : OutEvent.rawEnter ∉ es)
    (h2 : OutEvent.rawRestore ∉ es) : QuietFrame s ((s.emit es).setSinkLimit n) where
  regs _ _ := rfl
  pc := rfl
  count := rfl
  inputRest := rfl
  diag := rfl
  mem _ _ _ := rfl
  wf := id
  input := List.suffix_refl _
  output := ⟨es, rfl, h1, h2⟩
  reg0 := rfl
  cond := rfl
  running := rfl
  haltReason := rfl

theorem quiet_outBytes (bs : List Byte) (s : State) : QuietFrame s (outBytes bs s).1 := by
  obtain ⟨cs, n, e⟩ := outBytes_state bs s
  rw [e]
  exact quiet_emit _ _ _ (by simp) (by simp)

theorem quiet_outFlush (s : State) : QuietFrame s (outFlush s).1 := by
  rcases outFlush_cases s with ⟨-, e⟩ | ⟨-, e⟩ <;> rw [e]
  · exact QuietFrame.refl s
  · exact quiet_emit _ _ _ (by simp) (by simp)

theorem quiet_setInput {s : State} {rest : List Arrival} (h : rest <:+ s.input) : QuietFrame s (s.setInput rest) where
  regs _ _ := rfl
  pc := rfl
  count := rfl
  inputRest := rfl
  diag := rfl
  mem _ _ _ := rfl
  wf := id
  input := h
  output := ⟨[], by simp⟩
  reg0 := rfl
  cond := rfl
  running := rfl
  haltReason := rfl

theorem quiet_inRead {s t : State} {b : Byte} (h : inRead s = some (b, t)) : QuietFrame s t := by
  obtain ⟨rest, hr, rfl⟩ := inRead_state h
  exact quiet_setInput hr

/-- After an output call: the rest of the routine on a quiet successor, or the stop with OutputError on one. -/
theorem afterOutput_cases {r : State × Bool} {rest : State → Host.Outcome State Fault Refusal} {t : State}
    (h : afterOutput r rest = .next t) : (r.2 = true ∧ rest r.1 = .next t) ∨ (r.2 = false ∧ t = r.1.raise .outputError) := by
  unfold afterOutput at h
  split at h
  · next e => exact .inl ⟨e, h⟩
  · next e => cases h; exact .inr ⟨by simpa using e, rfl⟩

/-- After a blocking read: the rest of the routine on the byte and a quiet successor. -/
theorem afterInput_cases {s t : State} {rest : Byte → State → Host.Outcome State Fault Refusal}
    (h : afterInput s rest = .next t) : ∃ b u, inRead s = some (b, u) ∧ rest b u = .next t := by
  unfold afterInput at h
  split at h
  · next b u e => exact ⟨b, u, e, h⟩
  · cases h

/-- What a stop adds to a quiet run. -/
theorem frame_raise {s t : State} (h : QuietFrame s t) (r : HaltReason) : RoutineFrame s (t.raise r) :=
  { regs := h.regs, pc := h.pc, count := h.count, inputRest := h.inputRest, diag := h.diag, mem := h.mem, wf := h.wf,
    input := h.input, output := h.output }

/-- What the end of GETC and IN adds to a quiet run. -/
theorem frame_result {s t : State} (h : QuietFrame s t) (v : Word) : RoutineFrame s (writeResult trapReg v t) :=
  { regs := fun r hr => by rw [writeResult_reg, if_neg hr]; exact h.regs r hr
    pc := h.pc, count := h.count, inputRest := h.inputRest, diag := h.diag, mem := h.mem, wf := h.wf,
    input := h.input, output := h.output }

/-- How a routine that answers ends: quietly, with a character in R0, or stopped for a reason of its own. -/
inductive RoutineEnd (v : BitVec 8) (s t : State) : Prop where
  | quiet (hv : readsCharacter v = false) (h : QuietFrame s t)
  | character (hv : readsCharacter v = true) (u : State) (b : Byte) (h : QuietFrame s u)
      (e : t = writeResult trapReg (zext16 b) u)
  | stopped (u : State) (r : HaltReason) (h : QuietFrame s u) (e : t = u.raise r)
      (hr : (r = .outputError ∧ isRoutineVector v = true ∧ v ≠ Config.trapGetc) ∨ (r = .haltTrap ∧ v = Config.trapHalt) ∨
        (r = .unknownTrap v ∧ isRoutineVector v = false))

theorem RoutineEnd.frame {v : BitVec 8} {s t : State} (h : RoutineEnd v s t) : RoutineFrame s t := by
  cases h with
  | quiet _ h => exact h.toRoutineFrame
  | character _ u b h e => exact e ▸ frame_result h _
  | stopped u r h e _ => exact e ▸ frame_raise h r

/-! ### One turn of the string loops -/

theorem putsLoop_end {n : Nat} {a : Word} {s : State} (h : (memRead a s).1 = 0) :
    putsLoop (n + 1) a s = .next (memRead a s).2 := by
  simp only [putsLoop, if_pos h]

theorem putsLoop_more {n : Nat} {a : Word} {s : State} (h : (memRead a s).1 ≠ 0) :
    putsLoop (n + 1) a s =
      afterOutput (outByte (lowByte (memRead a s).1) (memRead a s).2) fun t => putsLoop n (a + 1) t := by
  simp only [putsLoop, if_neg h]

theorem putspLoop_end {n : Nat} {a : Word} {s : State} (h : lowByte (memRead a s).1 = 0) :
    putspLoop (n + 1) a s = .next (memRead a s).2 := by
  simp only [putspLoop, if_pos h]

theorem putspLoop_more {n : Nat} {a : Word} {s : State} (h : lowByte (memRead a s).1 ≠ 0) :
    putspLoop (n + 1) a s =
      afterOutput (outByte (lowByte (memRead a s).1) (memRead a s).2) fun t =>
        if highByte (memRead a s).1 = 0 then .next t
        else afterOutput (outByte (highByte (memRead a s).1) t) fun u => putspLoop n (a + 1) u := by
  simp only [putspLoop, if_neg h]

/-- How many addresses a walk through memory is before KBSR_ADDR; it falls by one at each turn until the walk is there. -/
def statusDistance (a : Word) : Nat := (Config.kbsrAddr - a).toNat

theorem statusDistance_lt (a : Word) : statusDistance a < 65536 := (Config.kbsrAddr - a).isLt

theorem statusDistance_succ {a : Word} (h : a ≠ Config.kbsrAddr) : statusDistance (a + 1) + 1 = statusDistance a := by
  unfold statusDistance
  generalize Config.kbsrAddr = k at *
  bv_omega

theorem statusDistance_eq_zero {a : Word} : statusDistance a = 0 ↔ a = Config.kbsrAddr := by
  unfold statusDistance
  generalize Config.kbsrAddr = k at *
  bv_omega

/-- The PUTS loop is quiet, or stops because the sink failed. -/
theorem putsLoop_cases {n : Nat} {a : Word} {s t : State} (h : putsLoop n a s = .next t) :
    QuietFrame s t ∨ ∃ u, QuietFrame s u ∧ t = u.raise .outputError := by
  induction n generalizing a s with
  | zero => cases h
  | succ n ih =>
    have hq := quiet_memRead a s
    have ho := quiet_outBytes [lowByte (memRead a s).1] (memRead a s).2
    simp only [putsLoop] at h
    split at h
    · cases h; exact .inl hq
    · rcases afterOutput_cases h with ⟨-, h⟩ | ⟨-, rfl⟩
      · rcases ih h with h | ⟨u, h, e⟩
        · exact .inl ((hq.trans ho).trans h)
        · exact .inr ⟨u, (hq.trans ho).trans h, e⟩
      · exact .inr ⟨_, hq.trans ho, rfl⟩

/-- The PUTSP loop is quiet, or stops because the sink failed. -/
theorem putspLoop_cases {n : Nat} {a : Word} {s t : State} (h : putspLoop n a s = .next t) :
    QuietFrame s t ∨ ∃ u, QuietFrame s u ∧ t = u.raise .outputError := by
  induction n generalizing a s with
  | zero => cases h
  | succ n ih =>
    have hq := quiet_memRead a s
    have ho := hq.trans (quiet_outBytes [lowByte (memRead a s).1] (memRead a s).2)
    simp only [putspLoop] at h
    split at h
    · cases h; exact .inl hq
    · rcases afterOutput_cases h with ⟨-, h⟩ | ⟨-, rfl⟩
      · split at h
        · cases h; exact .inl ho
        · have hp := ho.trans (quiet_outBytes [highByte (memRead a s).1] _)
          rcases afterOutput_cases h with ⟨-, h⟩ | ⟨-, rfl⟩
          · rcases ih h with h | ⟨u, h, e⟩
            · exact .inl (hp.trans h)
            · exact .inr ⟨u, hp.trans h, e⟩
          · exact .inr ⟨_, hp, rfl⟩
      · exact .inr ⟨_, ho, rfl⟩

/-- What the dispatcher can do with any vector, when it answers. -/
theorem trapRoutine_cases {v : BitVec 8} {s t : State} (h : trapRoutine v s = .next t) : RoutineEnd v s t := by
  unfold trapRoutine at h
  split at h
  · next hv =>
    subst hv
    obtain ⟨b, u, e, h⟩ := afterInput_cases h
    cases h
    exact .character (by decide) u b (quiet_inRead e) rfl
  split at h
  · next hv =>
    subst hv
    rcases afterOutput_cases h with ⟨-, h⟩ | ⟨-, rfl⟩
    · cases h; exact .quiet (by decide) (quiet_outBytes _ s)
    · exact .stopped _ _ (quiet_outBytes _ s) rfl (.inl ⟨rfl, by decide, by decide⟩)
  split at h
  · next hv =>
    subst hv
    rcases putsLoop_cases h with h | ⟨u, h, e⟩
    · exact .quiet (by decide) h
    · exact .stopped u _ h e (.inl ⟨rfl, by decide, by decide⟩)
  split at h
  · next hv =>
    subst hv
    rcases afterOutput_cases h with ⟨-, h⟩ | ⟨-, rfl⟩
    · obtain ⟨b, u, e, h⟩ := afterInput_cases h
      have hq := ((quiet_outBytes _ s).trans (quiet_inRead e)).trans (quiet_outBytes [b] u)
      rcases afterOutput_cases h with ⟨-, h⟩ | ⟨-, rfl⟩
      · cases h; exact .character (by decide) _ b hq rfl
      · exact .stopped _ _ hq rfl (.inl ⟨rfl, by decide, by decide⟩)
    · exact .stopped _ _ (quiet_outBytes _ s) rfl (.inl ⟨rfl, by decide, by decide⟩)
  split at h
  · next hv =>
    subst hv
    rcases putspLoop_cases h with h | ⟨u, h, e⟩
    · exact .quiet (by decide) h
    · exact .stopped u _ h e (.inl ⟨rfl, by decide, by decide⟩)
  split at h
  · next hv =>
    subst hv
    rcases afterOutput_cases h with ⟨-, h⟩ | ⟨-, rfl⟩
    · have hq := (quiet_outBytes Config.haltNotice s).trans (quiet_outFlush _)
      rcases afterOutput_cases h with ⟨-, h⟩ | ⟨-, rfl⟩
      · cases h; exact .stopped _ _ hq rfl (.inr (.inl ⟨rfl, rfl⟩))
      · exact .stopped _ _ hq rfl (.inl ⟨rfl, by decide, by decide⟩)
    · exact .stopped _ _ (quiet_outBytes _ s) rfl (.inl ⟨rfl, by decide, by decide⟩)
  · cases h
    refine .stopped s _ (QuietFrame.refl s) rfl (.inr (.inr ⟨rfl, ?_⟩))
    simp_all [isRoutineVector]

/-- A bracketed routine answers exactly when the routine does, between RawEnter and RawRestore (R181). -/
theorem withRawMode_cases {f : State → Host.Outcome State Fault Refusal} {s t : State} (h : withRawMode f s = .next t) :
    ∃ u, f (rawEnter s) = .next u ∧ t = rawRestore u := by
  unfold withRawMode at h
  split at h
  · next u e => cases h; exact ⟨u, e, rfl⟩
  · cases h
  · cases h

theorem withRawMode_next {f : State → Host.Outcome State Fault Refusal} {s u : State} (h : f (rawEnter s) = .next u) :
    withRawMode f s = .next (rawRestore u) := by
  simp [withRawMode, h]

theorem withRawMode_fault {f : State → Host.Outcome State Fault Refusal} {s : State} {e : Fault}
    (h : f (rawEnter s) = .fault e) : withRawMode f s = .fault e := by
  simp [withRawMode, h]

/-- What a TRAP word does, when it answers: its routine between the brackets. -/
theorem trap_cases {v : BitVec 8} {s t : State} (h : withRawMode (trapRoutine v) s = .next t) :
    ∃ u, RoutineEnd v (rawEnter s) u ∧ t = rawRestore u := by
  obtain ⟨u, h, e⟩ := withRawMode_cases h
  exact ⟨u, trapRoutine_cases h, e⟩

/-! ### The dispatcher on each vector (R182) -/

theorem trapRoutine_getc : trapRoutine Config.trapGetc = getcRoutine := rfl
theorem trapRoutine_out : trapRoutine Config.trapOut = outRoutine := rfl
theorem trapRoutine_puts : trapRoutine Config.trapPuts = putsRoutine := rfl
theorem trapRoutine_in : trapRoutine Config.trapIn = inRoutine := rfl
theorem trapRoutine_putsp : trapRoutine Config.trapPutsp = putspRoutine := rfl
theorem trapRoutine_halt : trapRoutine Config.trapHalt = haltRoutine := rfl
theorem trapRoutine_unknown {v : BitVec 8} (h : isRoutineVector v = false) : trapRoutine v = unknownRoutine v := by
  funext s
  simp only [isRoutineVector, Bool.or_eq_false_iff, beq_eq_false_iff_ne] at h
  simp [trapRoutine, h]

end Sys2Proof.Machine
end

