-- ==== Sys2Proof/Laws/Exec.lean ====
section
/-! SUPPORT. What an instruction can do, said once for each of the three kinds: plain, trap, illegal. And the operand
forms and the flags as plain numbers. -/

namespace Sys2Proof.Machine

/-! ### Operands and flags -/

/-- Sign extension of a field of at most 16 bits is the library's (00_scope.md R8). -/
theorem sext16_eq_signExtend {k : Nat} (v : BitVec k) (hk : k ≤ 16) : sext16 v = v.signExtend 16 := by
  have hones : ∀ n < 16, BitVec.getLsbD 0xFFFF#16 n = true := by decide
  apply BitVec.eq_of_getLsbD_eq
  intro j hj
  rw [BitVec.getLsbD_signExtend]
  by_cases hjk : j < k
  · cases h : v.msb <;> simp [sext16, h, hjk, hj]
  · have hge : v.getLsbD j = false := BitVec.getLsbD_of_ge v j (by omega)
    cases h : v.msb <;> simp [sext16, h, hjk, hj, hge, hones (j - k) (by omega)]

/-- A base and a sign-extended field add up as a base and a signed distance (R51, R85). -/
theorem add_sext16 {k : Nat} (base : Word) (v : BitVec k) (hk : k ≤ 16) : base + sext16 v = relAddr base v.toInt := by
  apply BitVec.eq_of_toInt_eq
  rw [sext16_eq_signExtend v hk, relAddr, BitVec.toInt_add, BitVec.toInt_ofInt, BitVec.toInt_signExtend_of_le hk,
    BitVec.toInt_eq_toNat_bmod base, Int.bmod_add_bmod]

theorem pcRelAddr_eq (s : State) (off : BitVec 9) : pcRelAddr s off = relAddr s.pc off.toInt := add_sext16 _ _ (by decide)
theorem jsrTarget_eq (s : State) (off : BitVec 11) : jsrTarget s off = relAddr s.pc off.toInt := add_sext16 _ _ (by decide)
theorem baseAddr_eq (s : State) (r : Reg) (off : BitVec 6) : baseAddr s r off = relAddr (s.reg r) off.toInt :=
  add_sext16 _ _ (by decide)

/-- The flags of a result are one of the three patterns (10_state.md R27, R28). -/
theorem condOf_legal (v : Word) :
    condOf v = Config.condPositive ∨ condOf v = Config.condZero ∨ condOf v = Config.condNegative := by
  unfold condOf
  split
  · exact .inr (.inl rfl)
  · split
    · exact .inr (.inr rfl)
    · exact .inl rfl

/-! ### Plain instructions: neither a trap nor an illegal opcode -/

/-- What a plain instruction leaves alone; its registers, PC and stored words are said instruction by instruction. -/
structure PlainFrame (s t : State) : Prop where
  count : t.count = s.count
  running : t.running = s.running
  haltReason : t.haltReason = s.haltReason
  inputRest : t.inputRest = s.inputRest
  sinkLimit : t.sinkLimit = s.sinkLimit
  output : t.output = s.output
  diag : t.diag = s.diag
  input : t.input <:+ s.input
  wf : Memory.wf s.mem → Memory.wf t.mem
  cond : s.condLegal → t.condLegal

theorem PlainFrame.refl (s : State) : PlainFrame s s :=
  ⟨rfl, rfl, rfl, rfl, rfl, rfl, rfl, List.suffix_refl _, id, id⟩

theorem PlainFrame.trans {s t u : State} (h : PlainFrame s t) (k : PlainFrame t u) : PlainFrame s u :=
  ⟨k.count.trans h.count, k.running.trans h.running, k.haltReason.trans h.haltReason, k.inputRest.trans h.inputRest,
    k.sinkLimit.trans h.sinkLimit, k.output.trans h.output, k.diag.trans h.diag, k.input.trans h.input,
    fun w => k.wf (h.wf w), fun c => k.cond (h.cond c)⟩

theorem plain_setReg (s : State) (r : Reg) (v : Word) : PlainFrame s (s.setReg r v) :=
  ⟨rfl, rfl, rfl, rfl, rfl, rfl, rfl, List.suffix_refl _, id, id⟩

theorem plain_setPc (s : State) (v : Word) : PlainFrame s (s.setPc v) :=
  ⟨rfl, rfl, rfl, rfl, rfl, rfl, rfl, List.suffix_refl _, id, id⟩

theorem plain_writeResult (r : Reg) (v : Word) (s : State) : PlainFrame s (writeResult r v s) :=
  ⟨rfl, rfl, rfl, rfl, rfl, rfl, rfl, List.suffix_refl _, id, fun _ => condOf_legal v⟩

theorem plain_memWrite (a v : Word) (s : State) : PlainFrame s (memWrite a v s) :=
  ⟨rfl, rfl, rfl, rfl, rfl, rfl, rfl, List.suffix_refl _, fun w => Memory.wf_write w a v, id⟩

theorem plain_memRead (a : Word) (s : State) : PlainFrame s (memRead a s).2 :=
  ⟨memRead_count a s, memRead_running a s, memRead_haltReason a s, memRead_inputRest a s, memRead_sinkLimit a s,
    memRead_output a s, memRead_diag a s, memRead_input a s, memRead_wf a, fun c => by
      unfold State.condLegal; rw [memRead_cond]; exact c⟩

theorem plain_loadFrom (r : Reg) (a : Word) (s : State) : PlainFrame s (loadFrom r a s) :=
  (plain_memRead a s).trans (plain_writeResult r _ _)

theorem plain_writeAnd (r : Reg) (v : Word) (s : State) : PlainFrame s (writeAnd r v s) := plain_setReg s r v

/-- What a plain instruction can do, when it answers. -/
theorem exec_plain {i : Instr} {s t : State} (ht : isTrap i = false) (hi : isIllegal i = false) (h : exec i s = .next t) :
    PlainFrame s t := by
  cases i with
  | addReg | addImm | not | lea => cases h; exact plain_writeResult _ _ s
  | andReg | andImm => cases h; exact plain_writeAnd _ _ s
  | br n z p off =>
    cases h
    split
    · exact plain_setPc s _
    · exact PlainFrame.refl s
  | jmp | ret => cases h; exact plain_setPc s _
  | jsr off => cases h; exact (plain_setReg s _ _).trans (plain_setPc _ _)
  | jsrr r => cases h; exact (plain_setReg s _ _).trans (plain_setPc _ _)
  | ld | ldr => cases h; exact plain_loadFrom _ _ s
  | ldi r off => cases h; exact (plain_memRead _ s).trans (plain_loadFrom _ _ _)
  | st | str => cases h; exact plain_memWrite _ _ s
  | sti r off => cases h; exact (plain_memRead _ s).trans (plain_memWrite _ _ _)
  | trap | getc | out | puts | inChar | putsp | halt => cases ht
  | rti | res => cases hi

/-! ### Traps and illegal opcodes -/

/-- Every row of the TRAP format runs the dispatcher on its vector; the classes of Safety.lean follow the vector. -/
theorem exec_trap {i : Instr} (hi : isTrap i = true) : ∃ v, (∀ s, exec i s = withRawMode (trapRoutine v) s) ∧
    (i = .trap v ∨ i = decodeTrap v) ∧ setsFlags i = readsCharacter v ∧
    destReg i = if readsCharacter v then some trapReg else none := by
  cases i with
  | trap v => exact ⟨v, fun _ => rfl, .inl rfl, rfl, rfl⟩
  | getc => exact ⟨Config.trapGetc, fun _ => rfl, .inr rfl, rfl, rfl⟩
  | out => exact ⟨Config.trapOut, fun _ => rfl, .inr rfl, rfl, rfl⟩
  | puts => exact ⟨Config.trapPuts, fun _ => rfl, .inr rfl, rfl, rfl⟩
  | inChar => exact ⟨Config.trapIn, fun _ => rfl, .inr rfl, rfl, rfl⟩
  | putsp => exact ⟨Config.trapPutsp, fun _ => rfl, .inr rfl, rfl, rfl⟩
  | halt => exact ⟨Config.trapHalt, fun _ => rfl, .inr rfl, rfl, rfl⟩
  | addReg | addImm | andReg | andImm | not | br | jmp | ret | jsr | jsrr | ld | ldi | ldr | lea | st | sti | str
  | rti | res => cases hi

/-- R0 and COND after a routine that is neither GETC nor IN are what they were. -/
theorem RoutineEnd.quiet_result {v : BitVec 8} {s t : State} (h : RoutineEnd v s t) (hv : readsCharacter v = false) :
    t.reg trapReg = s.reg trapReg ∧ t.cond = s.cond := by
  cases h with
  | quiet _ h => exact ⟨h.reg0, h.cond⟩
  | character h => rw [hv] at h; cases h
  | stopped u r h e => subst e; exact ⟨h.reg0, h.cond⟩

/-- An illegal opcode records its diagnostic and stops (44_reserved.md R210 to R212). -/
theorem exec_illegal {i : Instr} (hi : isIllegal i = true) : ∃ op, (op = 8 ∧ i = .rti ∨ op = 13 ∧ i = .res) ∧
    ∀ s, exec i s = .next (illegalOpcode op s) := by
  cases i with
  | rti => exact ⟨8, .inl ⟨rfl, rfl⟩, fun _ => rfl⟩
  | res => exact ⟨13, .inr ⟨rfl, rfl⟩, fun _ => rfl⟩
  | addReg | addImm | andReg | andImm | not | br | jmp | ret | jsr | jsrr | ld | ldi | ldr | lea | st | sti | str
  | trap | getc | out | puts | inChar | putsp | halt => cases hi

/-! ### The step -/

/-- A step that answers fetched, incremented PC and executed what it decoded, on a running machine (30_encoding.md R91, R92). -/
theorem step_cases {s t : State} (h : step s = .next t) : s.running = true ∧
    exec (decode (memRead s.pc s).1) ((memRead s.pc s).2.setPc (s.pc + 1)) = .next t := by
  unfold step at h
  rw [fetch_eq] at h
  split at h
  · next hr => exact ⟨hr, h⟩
  · cases h

/-- The fetch is plain. -/
theorem plain_fetch (s : State) : PlainFrame s ((memRead s.pc s).2.setPc (s.pc + 1)) :=
  (plain_memRead s.pc s).trans (plain_setPc _ _)

end Sys2Proof.Machine
end

