-- ==== Sys2Proof/Laws/Strings.lean ====
section
/-! SUPPORT. The walk of PUTS and PUTSP past the polled address, and the source that answers one byte for ever
(20_memory.md R53; 43_trap.md R185, R187). -/

namespace Sys2Proof.Machine

/-- An output call leaves the arrivals and memory alone. -/
theorem outByte_keeps (b : Byte) (s : State) :
    (outByte b s).1.input = s.input ∧ (outByte b s).1.inputRest = s.inputRest ∧ (outByte b s).1.mem = s.mem := by
  obtain ⟨cs, n, e⟩ := outBytes_state [b] s
  rw [outByte, e]
  exact ⟨rfl, rfl, rfl⟩

/-- A sink that never fails takes the byte. -/
theorem outByte_unlimited {b : Byte} {s : State} (h : s.sinkLimit = none) : outByte b s = (s.emit [.byte b], true) := by
  simp [outByte, outBytes, h]

/-- The word a read of KBSR_ADDR returns: ready exactly when the poll found a byte (R53). -/
theorem memRead_status_value (s : State) :
    (memRead Config.kbsrAddr s).1 = if (inPoll s).1.isSome then Config.kbsrReady else Config.kbsrNotReady := by
  rw [memRead_status]
  rcases poll_cases s with ⟨b, hb, e⟩ | ⟨hb, e⟩ <;> rw [e, hb] <;> simp

/-- The PUTS loop answers, or its string has not ended within the bound. -/
theorem putsLoop_total (n : Nat) (a : Word) (s : State) :
    (∃ u, putsLoop n a s = .next u) ∨ putsLoop n a s = .fault .endlessString := by
  induction n generalizing a s with
  | zero => exact .inr rfl
  | succ n ih =>
    by_cases h : (memRead a s).1 = 0
    · exact .inl ⟨_, putsLoop_end h⟩
    · rw [putsLoop_more h]
      unfold afterOutput
      split
      · exact ih _ _
      · exact .inl ⟨_, rfl⟩

/-- A machine on which polls no longer change any word: one byte for ever, already seen, and a sink that never fails. -/
structure Settled (b : Byte) (s : State) : Prop where
  sink : s.sinkLimit = none
  input : s.input = []
  rest : s.inputRest = some b
  status : s.mem.read Config.kbsrAddr = Config.kbsrReady
  data : s.mem.read Config.kbdrAddr = zext16 b

/-- A settled machine stays settled over a read, which returns the stored word and changes none. -/
theorem Settled.read {b : Byte} {s : State} (h : Settled b s) (a : Word) : (memRead a s).1 = s.mem.read a ∧
    Settled b (memRead a s).2 ∧ ∀ x, (memRead a s).2.mem.read x = s.mem.read x := by
  by_cases ha : a = Config.kbsrAddr
  · subst ha
    have hp : inPoll s = (some b, s) := by simp [inPoll, h.input, h.rest]
    have hm : (memRead Config.kbsrAddr s).2 =
        s.setMem ((s.mem.write Config.kbdrAddr (zext16 b)).write Config.kbsrAddr Config.kbsrReady) := by
      rw [memRead_status, poll, hp]
    have hx : ∀ x, (memRead Config.kbsrAddr s).2.mem.read x = s.mem.read x := by
      intro x
      rw [hm, State.setMem_mem, Memory.read_write, Memory.read_write]
      split
      · next e => rw [e, h.status]
      · split
        · next e => rw [e, h.data]
        · rfl
    exact ⟨(memRead_value _ s).trans (hx _), ⟨by rw [memRead_sinkLimit, h.sink], by rw [hm]; exact h.input,
      by rw [memRead_inputRest, h.rest], (hx _).trans h.status, (hx _).trans h.data⟩, hx⟩
  · rw [memRead_plain s ha]
    exact ⟨rfl, h, fun _ => rfl⟩

/-- On a settled machine whose memory holds no zero word, the PUTS loop never ends. -/
theorem Settled.putsLoop_stuck {b : Byte} (n : Nat) (a : Word) {s : State} (h : Settled b s) (hz : ∀ x, s.mem.read x ≠ 0) :
    putsLoop n a s = .fault .endlessString := by
  induction n generalizing a s with
  | zero => rfl
  | succ n ih =>
    obtain ⟨h1, h2, h3⟩ := h.read a
    rw [putsLoop_more (by rw [h1]; exact hz a), outByte_unlimited h2.sink]
    exact ih (a + 1) ⟨h2.sink, h2.input, h2.rest, h2.status, h2.data⟩ fun x => by
      rw [State.emit_mem, h3]; exact hz x

end Sys2Proof.Machine
end

