-- ==== Sys2Proof/Tests/Slice0.lean ====
section
/-! SUPPORT. Own tests: ill-formed terms, decoding of words written out from 30_encoding.md R83, single steps with the
results of spec/95_test_vectors.md, and for every statement with hypotheses a witness that meets them. -/

namespace Sys2Proof.Tests

open Sys2Proof Sys2Proof.Machine

/-! ### Helpers -/

/-- The machine right after construction with a host that has no input. -/
def silent : State := State.construct Config.gprInit Config.countInit [] none none

/-- The same machine with PC at `a` and the word `w` there. -/
def sample (a w : Word) : State := (silent.setPc a).setMem (Memory.write [] a w)

/-- The same machine with one more word of memory. -/
def withWord (s : State) (a v : Word) : State := s.setMem (s.mem.write a v)

/-- The same machine with an input source that has one byte in store. -/
def withByte (s : State) (b : Byte) : State := s.setInput [.byte b]

/-- The outcome is a next state that passes a check. -/
def answers (o : Host.Outcome State Fault Refusal) (check : State → Bool) : Bool :=
  match o with
  | .next t => check t
  | .fault _ => false
  | .refused _ => false

/-! ### WellFormed smoke: an ill-formed term for each check -/

theorem test_wellFormed_jmp_of_r7_refused : (Instr.jmp 7).wellFormed = false := by decide
theorem test_wellFormed_trap_of_routine_refused :
    ∀ v ∈ [Config.trapGetc, Config.trapOut, Config.trapPuts, Config.trapIn, Config.trapPutsp, Config.trapHalt],
      (Instr.trap v).wellFormed = false := by decide
theorem test_wellFormed_others : (Instr.jmp 6).wellFormed = true ∧ (Instr.trap 0x26).wellFormed = true := by decide

/-! ### Decoding, one word per constructor, bit by bit from R83 (rows of 95_test_vectors.md where one exists) -/

theorem test_decode_addReg : decode 0b0001_011_100_0_00_101#16 = .addReg 3 4 5 := by decide
theorem test_decode_addImm : decode 0b0001_001_001_1_11111#16 = .addImm 1 1 0b11111 := by decide
theorem test_decode_andReg : decode 0b0101_000_001_0_00_010#16 = .andReg 0 1 2 := by decide
theorem test_decode_andImm : decode 0b0101_001_010_1_01111#16 = .andImm 1 2 0b01111 := by decide
theorem test_decode_not : decode 0b1001_010_011_111111#16 = .not 2 3 := by decide
theorem test_decode_br : decode 0b0000_1_0_0_000000101#16 = .br true false false 5 := by decide
theorem test_decode_jmp : decode 0b1100_000_010_000000#16 = .jmp 2 := by decide
theorem test_decode_ret : decode 0b1100_000_111_000000#16 = .ret := by decide
theorem test_decode_jsr : decode 0b0100_1_11111111111#16 = .jsr 0x7FF := by decide
theorem test_decode_jsrr : decode 0b0100_0_00_010_000000#16 = .jsrr 2 := by decide
theorem test_decode_ld : decode 0b0010_001_000000110#16 = .ld 1 6 := by decide
theorem test_decode_ldi : decode 0b1010_000_000000010#16 = .ldi 0 2 := by decide
theorem test_decode_ldr : decode 0b0110_100_101_000001#16 = .ldr 4 5 1 := by decide
theorem test_decode_lea : decode 0b1110_000_111111111#16 = .lea 0 0x1FF := by decide
theorem test_decode_st : decode 0b0011_011_111111110#16 = .st 3 0x1FE := by decide
theorem test_decode_sti : decode 0b1011_001_000000101#16 = .sti 1 5 := by decide
theorem test_decode_str : decode 0b0111_101_001_111111#16 = .str 5 1 0x3F := by decide
theorem test_decode_trap : decode 0b1111_0000_00100110#16 = .trap 0x26 := by decide
theorem test_decode_getc : decode 0b1111_0000_00100000#16 = .getc := by decide
theorem test_decode_out : decode 0b1111_0000_00100001#16 = .out := by decide
theorem test_decode_puts : decode 0b1111_0000_00100010#16 = .puts := by decide
theorem test_decode_in : decode 0b1111_0000_00100011#16 = .inChar := by decide
theorem test_decode_putsp : decode 0b1111_0000_00100100#16 = .putsp := by decide
theorem test_decode_halt : decode 0b1111_0000_00100101#16 = .halt := by decide
theorem test_decode_rti : decode 0b1000_000000000000#16 = .rti := by decide
theorem test_decode_res : decode 0b1101_000100100011#16 = .res := by decide

/-- Unused bits: 95 O9, O16, J3, T14, I2. -/
theorem test_decode_unused_bits :
    decode 0x105A = .addReg 0 1 2 ∧ decode 0x9000 = .not 0 0 ∧ decode 0xCFFF = .ret ∧ decode 0xFF25 = .halt ∧
    decode 0x8FFF = .rti := by decide

/-- Encoding gives the words of 95 with their unused bits 0 (R95). -/
theorem test_encode_words :
    encode (.addReg 0 1 2) = 0x1042 ∧ encode (.addImm 1 1 0x1F) = 0x127F ∧ encode (.br false false true 0x1FD) = 0x03FD ∧
    encode .ret = 0xC1C0 ∧ encode (.jsrr 7) = 0x41C0 ∧ encode (.sti 1 5) = 0xB205 ∧ encode .halt = 0xF025 := by decide

/-! ### Sign extension (95 S1 to S10) -/

theorem test_sext16 :
    sext16 (0x0F : BitVec 5) = 0x000F ∧ sext16 (0x10 : BitVec 5) = 0xFFF0 ∧ sext16 (0x1F : BitVec 6) = 0x001F ∧
    sext16 (0x20 : BitVec 6) = 0xFFE0 ∧ sext16 (0x0FF : BitVec 9) = 0x00FF ∧ sext16 (0x100 : BitVec 9) = 0xFF00 ∧
    sext16 (0x3FF : BitVec 11) = 0x03FF ∧ sext16 (0x400 : BitVec 11) = 0xFC00 := by decide

/-! ### One step each, results from 95_test_vectors.md -/

/-- O2. -/
theorem test_addReg_wraps : answers (step (((sample 0x3000 0x1705).setReg 4 0x7FFF).setReg 5 1))
    (fun t => t.reg 3 == 0x8000 && t.cond == 4) = true := by decide
/-- O5. -/
theorem test_addReg_source_is_destination : answers (step ((sample 0x3000 0x1241).setReg 1 0x4000))
    (fun t => t.reg 1 == 0x8000 && t.cond == 4) = true := by decide
/-- O6. -/
theorem test_addImm_minus_one : answers (step (sample 0x3000 0x127F))
    (fun t => t.reg 1 == 0xFFFF && t.cond == 4) = true := by decide
/-- O8. -/
theorem test_addImm_to_zero : answers (step ((sample 0x3000 0x1070).setReg 1 16))
    (fun t => t.reg 0 == 0 && t.cond == 2) = true := by decide
/-- O10. -/
theorem test_andReg_keeps_cond : answers (step ((((sample 0x3000 0x5042).setReg 1 0x00F0).setReg 2 0x0FF0).setCond 4))
    (fun t => t.reg 0 == 0x00F0 && t.cond == 4) = true := by decide
/-- O11. -/
theorem test_andImm_keeps_cond : answers (step (((sample 0x3000 0x5020).setReg 0 0xABCD).setCond 1))
    (fun t => t.reg 0 == 0 && t.cond == 1) = true := by decide
/-- O12. -/
theorem test_andImm_sign_extends : answers (step ((sample 0x3000 0x52BF).setReg 2 0x8123))
    (fun t => t.reg 1 == 0x8123 && t.cond == 2) = true := by decide
/-- O14. -/
theorem test_not : answers (step ((sample 0x3000 0x94FF).setReg 3 0x00FF))
    (fun t => t.reg 2 == 0xFF00 && t.cond == 4) = true := by decide
/-- B10. -/
theorem test_br_taken_back : answers (step ((sample 0x3004 0x03FD).setCond 1)) (fun t => t.pc == 0x3002) = true := by decide
/-- B8: the incremented PC wraps. -/
theorem test_br_wraps : answers (step (sample 0xFFFF 0x0E01)) (fun t => t.pc == 0x0001) = true := by decide
/-- J1. -/
theorem test_jmp : answers (step ((sample 0x3000 0xC080).setReg 2 0x4000))
    (fun t => t.pc == 0x4000 && t.reg 7 == 0) = true := by decide
/-- J3. -/
theorem test_ret_unused_bits : answers (step ((sample 0x3000 0xCFFF).setReg 7 0x1234)) (fun t => t.pc == 0x1234) = true := by decide
/-- J5. -/
theorem test_jsr : answers (step (sample 0x3000 0x4FFF)) (fun t => t.reg 7 == 0x3001 && t.pc == 0x3000) = true := by decide
/-- J7: the link is written first. -/
theorem test_jsrr_r7 : answers (step ((sample 0x3000 0x41C0).setReg 7 0x5000))
    (fun t => t.reg 7 == 0x3001 && t.pc == 0x3001) = true := by decide
/-- L1. -/
theorem test_ld : answers (step (withWord (sample 0x3000 0x2206) 0x3007 7)) (fun t => t.reg 1 == 7 && t.cond == 1) = true := by decide
/-- L6. -/
theorem test_ldi : answers (step (withWord (withWord (sample 0x2FFF 0xA002) 0x3002 0x3050) 0x3050 20))
    (fun t => t.reg 0 == 20 && t.cond == 1) = true := by decide
/-- L7: the second read of LDI polls, and the byte is zero-extended. -/
theorem test_ldi_polls : answers (step (withByte (withWord (sample 0x3000 0xA004) 0x3005 0xFE00) 0xE9))
    (fun t => t.mem.read 0xFE02 == 0x00E9 && t.reg 0 == 0x8000 && t.cond == 4 && t.input == []) = true := by decide
/-- L4: no byte keeps KBDR. -/
theorem test_ldr_polls_none : answers (step (withWord ((sample 0x3000 0x6941).setReg 5 0xFDFF) 0xFE02 0x61))
    (fun t => t.mem.read 0xFE02 == 0x61 && t.reg 4 == 0 && t.cond == 2) = true := by decide
/-- L10: the address wraps. -/
theorem test_ldr_wraps : answers (step (withWord ((sample 0x3000 0x6941).setReg 5 0xFFFF) 0 0x42))
    (fun t => t.reg 4 == 0x42 && t.cond == 1) = true := by decide
/-- L13: LEA of KBSR_ADDR reads nothing. -/
theorem test_lea_no_poll : answers (step (withByte (sample 0xFDFF 0xE000) 0x61))
    (fun t => t.reg 0 == 0xFE00 && t.cond == 4 && t.input == [.byte 0x61]) = true := by decide
/-- L15. -/
theorem test_st : answers (step ((sample 0x3000 0x37FE).setReg 3 0xBEEF)) (fun t => t.mem.read 0x2FFF == 0xBEEF) = true := by decide
/-- L16. -/
theorem test_sti : answers (step (withWord ((sample 0x3002 0xB205).setReg 1 14) 0x3008 0x300A))
    (fun t => t.mem.read 0x300A == 14) = true := by decide
/-- L18. -/
theorem test_str : answers (step (((sample 0x3000 0x7A7F).setReg 1 0x4000).setReg 5 0xBEEF))
    (fun t => t.mem.read 0x3FFF == 0xBEEF) = true := by decide
/-- L19, its first step: a store at KBSR_ADDR is plain. -/
theorem test_str_status : answers (step (((sample 0x3000 0x7280).setReg 1 0x1234).setReg 2 0xFE00))
    (fun t => t.mem.read 0xFE00 == 0x1234) = true := by decide
/-- T13. -/
theorem test_trap_unknown : answers (step (sample 0x3000 0xF026)) (fun t => !t.running &&
    t.haltReason == some (.unknownTrap 0x26) && t.pc == 0x3001 && t.output == [.rawEnter, .rawRestore]) = true := by decide
/-- T3: zero extension, never Negative. -/
theorem test_getc : answers (step (withByte (sample 0x3000 0xF020) 0xFF)) (fun t => t.reg 0 == 0x00FF && t.cond == 1) = true := by decide
/-- T4. -/
theorem test_out : answers (step ((sample 0x3000 0xF021).setReg 0 0x1241))
    (fun t => t.output == [.rawEnter, .byte 0x41, .rawRestore] && t.reg 0 == 0x1241) = true := by decide
/-- T7: 0x0100 is no terminator. -/
theorem test_puts : answers (step (withWord (withWord ((sample 0x3000 0xF022).setReg 0 0x4000) 0x4000 0x0100) 0x4001 0x41))
    (fun t => t.output == [.rawEnter, .byte 0, .byte 0x41, .rawRestore]) = true := by decide
/-- T15: the sink fails on the first byte. -/
theorem test_puts_output_error : answers
    (step ((withWord ((sample 0x3000 0xF022).setReg 0 0x4000) 0x4000 0x41).setSinkLimit (some 0)))
    (fun t => !t.running && t.haltReason == some .outputError && t.output == [.rawEnter, .rawRestore]) = true := by decide
/-- T9, its register and flags. -/
theorem test_in : answers (step (withByte (sample 0x3000 0xF023) 0x37)) (fun t => t.reg 0 == 0x37 && t.cond == 1) = true := by decide
/-- T10. -/
theorem test_putsp : answers (step (withWord (withWord ((sample 0x3000 0xF024).setReg 0 0x4000) 0x4000 0x6948) 0x4001 0x21))
    (fun t => t.output == [.rawEnter, .byte 0x48, .byte 0x69, .byte 0x21, .rawRestore]) = true := by decide
/-- T11: a zero low byte stops before the high byte. -/
theorem test_putsp_low_zero : answers (step (withWord ((sample 0x3000 0xF024).setReg 0 0x4000) 0x4000 0x4100))
    (fun t => t.output == [.rawEnter, .rawRestore]) = true := by decide
/-- T12, its registers and reason. -/
theorem test_halt : answers (step (sample 0x3005 0xF025))
    (fun t => !t.running && t.haltReason == some .haltTrap && t.pc == 0x3006 && t.cond == 2) = true := by decide
/-- I2. -/
theorem test_rti : answers (step (sample 0x3001 0x8FFF))
    (fun t => !t.running && t.haltReason == some (.illegalOpcode 8) && t.pc == 0x3002 && t.output == []) = true := by decide
/-- I3. -/
theorem test_res : answers (step (sample 0x4000 0xD123))
    (fun t => !t.running && t.haltReason == some (.illegalOpcode 13) && t.pc == 0x4001) = true := by decide
/-- T16: no byte ever. -/
theorem test_getc_stuck : step (sample 0x3000 0xF020) = .fault .noInput := by rfl
/-- R53, R91: a fetch at KBSR_ADDR polls and executes the status word, here 0x8000, which is RTI (92 D11). -/
theorem test_fetch_polls : answers (step (withByte (silent.setPc 0xFE00) 0x61))
    (fun t => t.haltReason == some (.illegalOpcode 8) && t.mem.read 0xFE02 == 0x61) = true := by decide

/-! ### The loader (95 G1, G2, G3, G5, G6, G7) -/

theorem test_image_two_words : (loadImage [] [0x30, 0x00, 0x12, 0x34, 0x56, 0x78]) = .ok [(0x3000, 0x1234), (0x3001, 0x5678)] := by rfl
theorem test_image_odd_byte : (loadImage [] [0x30, 0x00, 0x12, 0x34, 0x56]) = .ok [(0x3000, 0x1234)] := by rfl
theorem test_image_short : (loadImage [] [0x30]) = .error .malformed := by rfl
theorem test_image_last_word : (loadImage [] [0xFF, 0xFF, 0x00, 0x01]) = .ok [(0xFFFF, 0x0001)] := by rfl
theorem test_image_overflow : (loadImage [] [0xFF, 0xFF, 0x00, 0x01, 0x00, 0x02]) = .error .overflow := by rfl
theorem test_images_in_order :
    (loadAll [] [some [0x30, 0x00, 0x00, 0x01, 0x00, 0x02], some [0x30, 0x01, 0x00, 0x09]]) =
      ([(0x3000, 0x0001), (0x3001, 0x0009)], [none, none]) := by rfl

/-- G8: PC is 0x3000 whatever the origin. G3 beside an image that loads: one result each, in order. -/
theorem test_boot : (boot Config.gprInit 0 [] none none [some [0x40, 0x00, 0xF0, 0x25]]).toOption.map
      (fun t => (t.pc, t.mem.read 0x4000)) = some (0x3000, 0xF025) ∧
    boot Config.gprInit 0 [] none none [some [0x30, 0x00, 0x00, 0x01], some [0x30]] = .error [none, some .malformed] := by
  exact ⟨rfl, rfl⟩

/-! ### What the host asks for: a table word is decoded, and run as the first instruction after reset -/

theorem test_decodeTableWord : decodeTableWord 16 0x1042 = some (.addReg 0 1 2) := by decide
/-- GETC and IN run as the first instruction after reset, whose host answers (log 7). -/
theorem test_reset_input : answers (step (State.reset.withFetchWord 16 0xF020)) (fun t => t.pc == 0x3001) = true ∧
    answers (step (State.reset.withFetchWord 16 0xF023)) (fun t => t.running) = true := by decide
theorem test_withFetchWord : answers (step (State.reset.withFetchWord 16 0x127F)) (fun t => t.reg 1 == 0xFFFF) = true := by decide

theorem takes_unlimited (s : State) (h : s.sinkLimit = none) (n : Nat) : s.sinkTakes n := fun k hk => by
  rw [h] at hk
  cases hk

theorem takes_limit (s : State) (n : Nat) : (s.setSinkLimit (some n)).sinkTakes n := fun k hk => by
  cases hk
  exact Nat.le_refl n

/-! ### Witnesses: for every statement with hypotheses, states and operands that meet all of them, clause by clause -/

theorem witness_DecodeOfEncodeIsIdentity : (Instr.addReg 7 7 7).wellFormed = true ∧ (Instr.jmp 6).wellFormed = true ∧
    (Instr.trap 0x1F).wellFormed = true ∧ (Instr.trap 0x26).wellFormed = true ∧ Instr.ret.wellFormed = true := by decide

theorem witness_UnusedBitsAreNotRead :
    (0x1042#16 &&& usedMask 0x1042 = 0x105A#16 &&& usedMask 0x1042 ∧ (0x1042#16 : Word) ≠ 0x105A) ∧
    (0x8000#16 &&& usedMask 0x8000 = 0x8FFF#16 &&& usedMask 0x8000 ∧ (0x8000#16 : Word) ≠ 0x8FFF) := by decide

theorem witness_SignExtensionKeepsSignedValue :
    (1 ≤ 1 ∧ 1 ≤ 16 ∧ (0#1).msb = false) ∧ (1 ≤ 5 ∧ 5 ≤ 16 ∧ (0x0F#5).msb = false ∧ (0x10#5).msb = true) ∧
    (1 ≤ 16 ∧ 16 ≤ 16 ∧ (0x7FFF#16).msb = false) := by decide

theorem witness_SetccTellsTheSign :
    (setsFlags (.lea 0 0) = true ∧ destReg (.lea 0 0) = some 0 ∧ ∃ t, exec (.lea 0 0) silent = .next t ∧ t.running = true) ∧
    (setsFlags .getc = true ∧ destReg .getc = some 0 ∧ ∃ t, exec .getc (withByte silent 0) = .next t ∧ t.running = true) := by
  exact ⟨⟨rfl, rfl, _, rfl, rfl⟩, rfl, rfl, _, rfl, rfl⟩

/-- A plain read, a poll that finds a byte, one that finds none, and one that a source answers for ever; and the three
heads of the arrivals. -/
theorem witness_MemReadPollsExactlyAtStatus :
    ((withByte silent 0x61).input = .byte 0x61 :: [] ∧ (silent.setInput [.notYet, .byte 0x61]).input = .notYet :: [.byte 0x61] ∧
      silent.input = []) ∧
    (0xFDFF#16 ≠ Config.kbsrAddr ∧ 0xFE01#16 ≠ Config.kbsrAddr ∧ Config.kbdrAddr ≠ Config.kbsrAddr) ∧
    (∃ w t, memRead Config.kbsrAddr (withByte silent 0x61) = (w, t) ∧ (inPoll (withByte silent 0x61)).1 = some 0x61) ∧
    (∃ w t, memRead Config.kbsrAddr silent = (w, t) ∧ (inPoll silent).1 = none) ∧
    (inPoll { silent with inputRest := some 0 }).1 = some 0 := by
  exact ⟨⟨rfl, rfl, rfl⟩, by decide, ⟨_, _, rfl, rfl⟩, ⟨_, _, rfl, rfl⟩, rfl⟩

theorem witness_MemWriteStoresOneWord : (0x0001#16 : Word) ≠ 0x0000 ∧ Config.kbdrAddr ≠ Config.kbsrAddr := by decide

/-- One word of each format, for the decoding clauses of the statements about single instructions. -/
theorem witness_instruction_words :
    (opcodeField 0x1042 = 0b0001#4 ∧ (0x1042#16).getLsbD 5 = false) ∧ (opcodeField 0x127F = 0b0001#4 ∧ (0x127F#16).getLsbD 5 = true) ∧
    (opcodeField 0x5042 = 0b0101#4 ∧ (0x5042#16).getLsbD 5 = false) ∧ (opcodeField 0x52BF = 0b0101#4 ∧ (0x52BF#16).getLsbD 5 = true) ∧
    opcodeField 0x94FF = 0b1001#4 ∧ opcodeField 0x0805 = 0b0000#4 ∧ opcodeField 0xCFFF = 0b1100#4 ∧
    (opcodeField 0x4FFF = 0b0100#4 ∧ (0x4FFF#16).getLsbD 11 = true) ∧ (opcodeField 0x41C0 = 0b0100#4 ∧ (0x41C0#16).getLsbD 11 = false) ∧
    opcodeField 0x2206 = 0b0010#4 ∧ opcodeField 0xA002 = 0b1010#4 ∧ opcodeField 0x6941 = 0b0110#4 ∧ opcodeField 0xE002 = 0b1110#4 ∧
    opcodeField 0x3402 = 0b0011#4 ∧ opcodeField 0xB205 = 0b1011#4 ∧ opcodeField 0x7280 = 0b0111#4 ∧ opcodeField 0xFF25 = 0b1111#4 ∧
    opcodeField 0x8FFF = 8 ∧ opcodeField 0xD123 = 13 := by decide

theorem witness_AddRegisterAddsAndSetsFlags : opcodeField 0x1042 = 0b0001#4 ∧ (0x1042#16).getLsbD 5 = false ∧ (1 : Reg) ≠ 0 := by decide
theorem witness_AddImmediateAddsAndSetsFlags : opcodeField 0x127F = 0b0001#4 ∧ (0x127F#16).getLsbD 5 = true ∧ (7 : Reg) ≠ 1 := by decide
theorem witness_AndRegisterLeavesFlags : opcodeField 0x5042 = 0b0101#4 ∧ (0x5042#16).getLsbD 5 = false ∧ (1 : Reg) ≠ 0 := by decide
theorem witness_AndImmediateLeavesFlags : opcodeField 0x52BF = 0b0101#4 ∧ (0x52BF#16).getLsbD 5 = true ∧ (2 : Reg) ≠ 1 := by decide
theorem witness_NotComplementsAndSetsFlags : opcodeField 0x94FF = 0b1001#4 ∧ 0 < 16 ∧ 15 < 16 ∧ (3 : Reg) ≠ 2 := by decide
theorem witness_BranchTestsCond : opcodeField 0x0805 = 0b0000#4 ∧ silent.condLegal ∧ (silent.setCond 4).condLegal ∧
    (silent.setCond 1).condLegal := by
  exact ⟨by decide, .inr (.inl rfl), .inr (.inr rfl), .inl rfl⟩
theorem witness_JumpWordsGoToTheirBase : opcodeField 0xCFFF = 0b1100#4 ∧ opcodeField 0xC080 = 0b1100#4 := by decide
theorem witness_JsrLinksAndBranches : opcodeField 0x4FFF = 0b0100#4 ∧ (0x4FFF#16).getLsbD 11 = true ∧ (6 : Reg) ≠ 7 := by decide
theorem witness_JsrrLinksBeforeReadingBase : opcodeField 0x41C0 = 0b0100#4 ∧ (0x41C0#16).getLsbD 11 = false ∧ (6 : Reg) ≠ 7 := by decide

/-- The address 0xFDFF is plain and 0xFE00 polls. -/
theorem witness_LdLoadsPcRelative : opcodeField 0x2206 = 0b0010#4 ∧ (2 : Reg) ≠ 1 ∧
    relAddr (silent.setPc 0xFE00).pc (0x1FF#9).toInt ≠ Config.kbsrAddr ∧
    relAddr (silent.setPc 0xFE01).pc (0x1FF#9).toInt = Config.kbsrAddr := by decide

theorem witness_LdiLoadsIndirect : opcodeField 0xA002 = 0b1010#4 ∧ (1 : Reg) ≠ 0 ∧
    (∃ ea u, memRead (relAddr (sample 0x3000 0xA002).pc (2#9).toInt) (sample 0x3000 0xA002) = (ea, u) ∧
      relAddr (sample 0x3000 0xA002).pc (2#9).toInt ≠ Config.kbsrAddr ∧ ea ≠ Config.kbsrAddr) := by
  exact ⟨by decide, by decide, _, _, rfl, by decide, by decide⟩

theorem witness_LdrLoadsBasePlusOffset : opcodeField 0x6941 = 0b0110#4 ∧ (5 : Reg) ≠ 4 ∧
    relAddr ((silent.setReg 5 0xFDFE).reg 5) (1#6).toInt ≠ Config.kbsrAddr ∧
    relAddr ((silent.setReg 5 0xFDFF).reg 5) (1#6).toInt = Config.kbsrAddr := by decide

theorem witness_LeaLoadsTheAddress : opcodeField 0xE002 = 0b1110#4 ∧ (1 : Reg) ≠ 0 := by decide

theorem witness_StStoresPcRelative : opcodeField 0x3402 = 0b0011#4 ∧
    (0x0000#16 : Word) ≠ relAddr (silent.setPc 0xFFFF).pc (2#9).toInt := by decide

theorem witness_StiStoresIndirect : opcodeField 0xB205 = 0b1011#4 ∧
    (∃ ea u, memRead (relAddr (sample 0x3002 0xB205).pc (5#9).toInt) (sample 0x3002 0xB205) = (ea, u) ∧
      relAddr (sample 0x3002 0xB205).pc (5#9).toInt ≠ Config.kbsrAddr ∧ (1#16 : Word) ≠ ea ∧ (1#16 : Word) ≠ Config.kbsrAddr ∧
      (1#16 : Word) ≠ Config.kbdrAddr) := by
  exact ⟨by decide, _, _, rfl, by decide, by decide, by decide, by decide⟩

theorem witness_StrStoresBasePlusOffset : opcodeField 0x7280 = 0b0111#4 ∧
    (0x0000#16 : Word) ≠ relAddr ((silent.setReg 1 0x4000).reg 1) (0#6).toInt := by decide

theorem witness_TrapDispatchesOnItsVector : opcodeField 0xFF25 = 0b1111#4 ∧ opcodeField 0xF000 = 0b1111#4 := by decide

/-- Each of the seven kinds of trap answers somewhere. -/
theorem witness_EveryTrapIsBracketed :
    (isTrap (.trap 0x26) = true ∧ ∃ t, exec (.trap 0x26) silent = .next t) ∧
    (isTrap .getc = true ∧ ∃ t, exec .getc (withByte silent 0) = .next t) ∧
    (isTrap .out = true ∧ ∃ t, exec .out silent = .next t) ∧ (isTrap .puts = true ∧ ∃ t, exec .puts silent = .next t) ∧
    (isTrap .inChar = true ∧ ∃ t, exec .inChar (withByte silent 0) = .next t) ∧
    (isTrap .putsp = true ∧ ∃ t, exec .putsp silent = .next t) ∧ (isTrap .halt = true ∧ ∃ t, exec .halt silent = .next t) := by
  exact ⟨⟨rfl, _, rfl⟩, ⟨rfl, _, rfl⟩, ⟨rfl, _, rfl⟩, ⟨rfl, _, rfl⟩, ⟨rfl, _, rfl⟩, ⟨rfl, _, rfl⟩, ⟨rfl, _, rfl⟩⟩

theorem witness_TrapSavesNoState : (∃ t, exec (.trap 0x22) silent = .next t) ∧ (0x22#8 ≠ Config.trapGetc ∧ 0x22#8 ≠ Config.trapIn) ∧
    (1 : Reg) ≠ 0 ∧ (0x4000#16 ≠ Config.kbsrAddr ∧ 0x4000#16 ≠ Config.kbdrAddr) := by
  exact ⟨⟨_, rfl⟩, by decide, by decide, by decide⟩

/-- Both ways a byte can come: past one moment without a byte, and from a source whose listed arrivals are used up. -/
theorem witness_GetcReadsACharacter :
    (silent.setInput [.notYet, .byte 0x41]).input = List.replicate 1 .notYet ++ .byte 0x41 :: [] ∧
    (({ silent with inputRest := some 0x41 } : State).input = List.replicate 0 .notYet ∧
      ({ silent with inputRest := some 0x41 } : State).inputRest = some 0x41 ∧ ([] : List Arrival) = []) := by
  exact ⟨rfl, rfl, rfl, rfl⟩

theorem witness_OutWritesTheLowByte : silent.sinkTakes 1 ∧ (silent.setSinkLimit (some 1)).sinkTakes 1 := by
  exact ⟨takes_unlimited _ rfl _, takes_limit _ _⟩

/-- The empty string, the string of 95 T7 with a sink that takes just its two bytes, and one that begins at KBSR_ADDR. -/
theorem witness_PutsWritesTheWordString :
    ((∃ t, ReadsString silent (silent.reg 0) [] t) ∧ silent.sinkTakes 0 ∧ AvoidsStatus (silent.reg 0) 1) ∧
    (let s := (withWord (withWord (silent.setReg 0 0x4000) 0x4000 0x0100) 0x4001 0x41).setSinkLimit (some 2)
     (∃ t, ReadsString s (s.reg 0) [0x0100, 0x41] t) ∧ s.sinkTakes 2) ∧
    (let s := withByte (silent.setReg 0 0xFE00) 0x41
     (∃ t, ReadsString s (s.reg 0) [0x8000] t) ∧ s.sinkTakes 1) := by
  refine ⟨⟨⟨_, _, rfl, rfl⟩, takes_unlimited _ rfl _, ?_⟩, ⟨⟨_, _, ⟨rfl, by decide, rfl, by decide, rfl⟩, rfl⟩, takes_limit _ _⟩,
    ⟨_, _, ⟨rfl, by decide, rfl⟩, rfl⟩, takes_unlimited _ rfl _⟩
  intro j hj
  obtain rfl : j = 0 := by omega
  decide

theorem witness_InPromptsReadsAndEchoes :
    (withByte silent 0x37).sinkTakes (Config.inPrompt.length + 1) ∧
    (silent.setSinkLimit (some (Config.inPrompt.length + 1))).sinkTakes (Config.inPrompt.length + 1) ∧
    (withByte silent 0x37).input = List.replicate 0 .notYet ++ .byte 0x37 :: [] := by
  exact ⟨takes_unlimited _ rfl _, takes_limit _ _, rfl⟩

/-- The three ends of a packed string: at once, after a low byte, after a high byte; and the end at KBSR_ADDR. -/
theorem witness_PutspWritesThePackedString :
    ((∃ t, ReadsPacked silent (silent.reg 0) [] t) ∧ silent.sinkTakes 0) ∧
    (let s := withWord (withWord (silent.setReg 0 0x4000) 0x4000 0x6948) 0x4001 0x21
     (∃ t, ReadsPacked s (s.reg 0) [0x48, 0x69, 0x21] t) ∧ s.sinkTakes 3) ∧
    (let s := withWord (silent.setReg 0 0x4000) 0x4000 0x6948
     (∃ t, ReadsPacked s (s.reg 0) [0x48, 0x69] t) ∧ s.sinkTakes 2) ∧
    (let s := withByte (silent.setReg 0 0xFE00) 0x41
     (∃ t, ReadsPacked s (s.reg 0) [] t) ∧ s.sinkTakes 0) := by
  exact ⟨⟨⟨_, rfl, rfl⟩, takes_unlimited _ rfl _⟩,
    ⟨⟨_, rfl, by decide, rfl, by decide, rfl, by decide, rfl, rfl⟩, takes_unlimited _ rfl _⟩,
    ⟨⟨_, rfl, by decide, rfl, by decide, rfl, rfl⟩, takes_unlimited _ rfl _⟩, ⟨_, rfl, rfl⟩, takes_unlimited _ rfl _⟩

theorem witness_HaltStopsNormally : silent.sinkTakes (Config.haltNotice.length + 1) ∧
    (silent.setSinkLimit (some (Config.haltNotice.length + 1))).sinkTakes (Config.haltNotice.length + 1) := by
  exact ⟨takes_unlimited _ rfl _, takes_limit _ _⟩

theorem witness_UnknownVectorStops : isRoutineVector 0x1F = false ∧ isRoutineVector 0x26 = false ∧ isRoutineVector 0xFF = false := by decide

/-- A sink that fails at once, and for HALT and IN one that fails at the last call the clause allows, whatever the texts are. -/
theorem witness_RoutineOutputFailureStops :
    (silent.setSinkLimit (some 0)).sinkLimit = some 0 ∧
    ((silent.setSinkLimit (some Config.haltNotice.length)).sinkLimit = some Config.haltNotice.length ∧
      Config.haltNotice.length ≤ Config.haltNotice.length ∧ 0 ≤ Config.haltNotice.length) ∧
    (let s := (withByte silent 0x37).setSinkLimit (some Config.inPrompt.length)
     s.sinkLimit = some Config.inPrompt.length ∧ Config.inPrompt.length ≤ Config.inPrompt.length ∧
     (if Config.inPrompt.length < Config.inPrompt.length then ([] : List Arrival) = s.input
      else ∃ (n : Nat) (b : Byte), s.input = List.replicate n .notYet ++ .byte b :: [] ∨
        (s.input = List.replicate n .notYet ∧ s.inputRest = some b ∧ ([] : List Arrival) = []))) := by
  refine ⟨rfl, ⟨rfl, Nat.le_refl _, Nat.zero_le _⟩, rfl, Nat.le_refl _, ?_⟩
  rw [if_neg (Nat.lt_irrefl _)]
  exact ⟨0, 0x37, .inl rfl⟩

/-- The sink fails at the first and at the second character. -/
theorem witness_StringOutputFailureStops :
    (let s := (withWord (silent.setReg 0 0x4000) 0x4000 0x0100).setSinkLimit (some 0)
     (∃ t, ReadsWords s (s.reg 0) ([] ++ [0x0100]) t) ∧ s.sinkLimit = some ([] : List Word).length) ∧
    (let s := (withWord (withWord (silent.setReg 0 0x4000) 0x4000 0x0100) 0x4001 0x41).setSinkLimit (some 1)
     (∃ t, ReadsWords s (s.reg 0) ([0x0100] ++ [0x41]) t) ∧ s.sinkLimit = some ([0x0100] : List Word).length) ∧
    (let s := (withWord (silent.setReg 0 0x4000) 0x4000 0x6948).setSinkLimit (some 0)
     (∃ t, ReadsBytes s (s.reg 0) ([] ++ [0x48]) t) ∧ s.sinkLimit = some ([] : List Byte).length) ∧
    (let s := (withWord (silent.setReg 0 0x4000) 0x4000 0x6948).setSinkLimit (some 1)
     (∃ t, ReadsBytes s (s.reg 0) ([0x48] ++ [0x69]) t) ∧ s.sinkLimit = some ([0x48] : List Byte).length) := by
  exact ⟨⟨⟨_, rfl, by decide, rfl⟩, rfl⟩, ⟨⟨_, rfl, by decide, rfl, by decide, rfl⟩, rfl⟩, ⟨⟨_, rfl, by decide, rfl⟩, rfl⟩,
    ⟨_, rfl, by decide, rfl, by decide, rfl⟩, rfl⟩

theorem witness_BlockingReadWithoutInputIsStuck :
    (silent.input = List.replicate 0 .notYet ∧ silent.inputRest = none ∧ silent.sinkTakes Config.inPrompt.length) ∧
    (silent.setInput [.notYet, .notYet]).input = List.replicate 2 .notYet := by
  exact ⟨⟨rfl, rfl, takes_unlimited _ rfl _⟩, rfl⟩

theorem witness_PutsCompletesUnlessInputIsEndless : silent.inputRest = none ∧
    (withByte (sample 0x3000 0xF022) 0x41).inputRest = none := by decide

/-- A machine over memory `m` whose status word is ready, with a source that answers the byte 1 for ever. -/
def endless (m : Memory) : State :=
  (State.construct Config.gprInit Config.countInit [] (some 1) none).setMem (m.write Config.kbsrAddr Config.kbsrReady)

theorem lookup_map_range (n a : Nat) (h : a < n) (m : Memory) :
    Memory.lookup ((List.range n).map (fun a => (a, (1 : Word))) ++ m) a = 1 := by
  induction n generalizing m with
  | zero => omega
  | succ n ih =>
    rw [List.range_succ, List.map_append, List.append_assoc]
    by_cases ha : a < n
    · exact ih ha _
    · obtain rfl : a = n := by omega
      suffices ∀ k : Nat, k ≤ a → Memory.lookup ((List.range k).map (fun a => (a, (1 : Word))) ++ ((a, 1) :: m)) a = 1 from
        this a (Nat.le_refl a)
      intro k
      induction k generalizing m with
      | zero => intro _; simp [Memory.lookup]
      | succ k ihk =>
        intro hk
        have skip : ∀ (l r : Memory), (∀ c ∈ l, c.1 ≠ a) → Memory.lookup (l ++ r) a = Memory.lookup r a := by
          intro l r hl
          induction l with
          | nil => rfl
          | cons c l ihl =>
            obtain ⟨b, v⟩ := c
            have hb : b ≠ a := hl (b, v) (by simp)
            show Memory.lookup ((b, v) :: (l ++ r)) a = _
            rw [Memory.lookup, if_neg hb]
            exact ihl fun c hc => hl c (by simp [hc])
        rw [skip _ _ (by simp; omega)]
        simp [Memory.lookup]

/-- PUTS is stuck on that machine where every word of `m` is 1. -/
theorem endless_stuck (m : Memory) (hm : ∀ x, m.read x = 1) : exec .puts (endless m) = .fault .endlessString := by
  have hr : ∀ x, (endless m).mem.read x = if x = Config.kbsrAddr then Config.kbsrReady else 1 := fun x => by
    rw [endless, State.setMem_mem, Memory.read_write, hm]
  have h : Settled 1 (rawEnter (endless m)) := ⟨rfl, rfl, rfl, hr Config.kbsrAddr, hr Config.kbdrAddr⟩
  refine withRawMode_fault (h.putsLoop_stuck _ _ fun x => ?_)
  rw [show (rawEnter (endless m)).mem = (endless m).mem from rfl, hr]
  split <;> decide

/-- There is such a memory: all 65536 words listed. -/
theorem witness_StuckPutsNeverEnds : ∃ m, exec .puts (endless m) = .fault .endlessString :=
  ⟨_, endless_stuck ((List.range 65536).map (fun a => (a, (1 : Word))) ++ []) fun x => lookup_map_range 65536 x.toNat x.isLt []⟩

theorem witness_IllegalOpcodesStop : (opcodeField 0x8FFF = 8 ∨ opcodeField 0x8FFF = 13) ∧ (opcodeField 0xD123 = 8 ∨ opcodeField 0xD123 = 13) := by decide

theorem witness_StepRunsTheDecodedInstruction :
    ((sample 0x3000 0x1042).running = true ∧ (∃ ir u, memRead (sample 0x3000 0x1042).pc (sample 0x3000 0x1042) = (ir, u)) ∧
      (sample 0x3000 0x1042).pc ≠ Config.kbsrAddr ∧
      decode ((sample 0x3000 0x1042).mem.read (sample 0x3000 0x1042).pc) = .addReg 0 1 2) ∧
    ((silent.setPc 0xFE00).running = true ∧
      ∃ ir u, memRead (silent.setPc 0xFE00).pc (silent.setPc 0xFE00) = (ir, u)) := by
  exact ⟨⟨rfl, ⟨_, _, rfl⟩, by decide, by decide⟩, rfl, _, _, rfl⟩

theorem witness_HaltedMachineHasNoStep : (silent.raise .haltTrap).running = false := rfl

theorem witness_StoreIsSeenByTheNextFetch :
    let s := sample 0x3000 0x3400
    s.running = true ∧ s.pc ≠ Config.kbsrAddr ∧ decode (s.mem.read s.pc) = .st 2 0 ∧
      relAddr (s.pc + 1) (0#9).toInt = s.pc + 1 ∧ s.pc + 1 ≠ Config.kbsrAddr := by decide

theorem witness_FlagIsVisibleToTheNextBranch :
    let s := withWord (sample 0xFFFF 0x1042) 0x0000 0x0805
    s.running = true ∧ s.pc ≠ Config.kbsrAddr ∧ s.pc + 1 ≠ Config.kbsrAddr ∧ decode (s.mem.read s.pc) = .addReg 0 1 2 ∧
      decode (s.mem.read (s.pc + 1)) = .br true false false 5 := by decide

theorem reset_inv : State.reset.Inv := ⟨Memory.wf_nil, .inr (.inl rfl), fun h => by cases h⟩

theorem witness_EveryStepKeepsInvariant : State.reset.Inv ∧ ∃ t, step State.reset = .next t := ⟨reset_inv, _, rfl⟩

theorem witness_OnlySetccInstructionsWriteCond : setsFlags (.andImm 0 0 0) = false ∧ ∃ t, exec (.andImm 0 0 0) silent = .next t :=
  ⟨rfl, _, rfl⟩

theorem witness_OnlyControlTransferWritesPc : isControl .halt = false ∧ ∃ t, exec .halt silent = .next t := ⟨rfl, _, rfl⟩

theorem witness_OnlyTheDestinationRegisterIsWritten : destReg (.jsr 0) ≠ some 0 ∧ ∃ t, exec (.jsr 0) silent = .next t :=
  ⟨by decide, _, rfl⟩

theorem witness_OnlyStoresAndPollsWriteMemory : isStore .puts = false ∧ 0xFDFF#16 ≠ Config.kbsrAddr ∧ 0xFDFF#16 ≠ Config.kbdrAddr ∧
    ∃ t, exec .puts silent = .next t := ⟨rfl, by decide, by decide, _, rfl⟩

theorem witness_OnlyTrapsWriteOutput : (isTrap .rti = false ∧ ∃ t, exec .rti silent = .next t) ∧
    (isIllegal .out = false ∧ ∃ t, exec .out silent = .next t) := ⟨⟨rfl, _, rfl⟩, rfl, _, rfl⟩

theorem witness_InputIsConsumedInOrder : ∃ t, step (withByte (sample 0x3000 0xF020) 0x41) = .next t := ⟨_, rfl⟩

/-- A stop of each kind. -/
theorem witness_StopsOnlyForTheirReasons :
    (∃ t, step (sample 0x3000 0xF025) = .next t ∧ t.running = false) ∧ (∃ t, step (sample 0x3000 0x8000) = .next t ∧ t.running = false) ∧
    (∃ t, step (sample 0x3000 0xD000) = .next t ∧ t.running = false) ∧ (∃ t, step (sample 0x3000 0xF026) = .next t ∧ t.running = false) ∧
    (∃ t, step ((sample 0x3000 0xF021).setSinkLimit (some 0)) = .next t ∧ t.running = false) := by
  exact ⟨⟨_, rfl, rfl⟩, ⟨_, rfl, rfl⟩, ⟨_, rfl, rfl⟩, ⟨_, rfl, rfl⟩, ⟨_, rfl, rfl⟩⟩

theorem witness_CountIsUnobservable : (∃ t, step silent = .next t) ∧ (∃ f, step (silent.raise .haltTrap) = .fault f) ∧
    ∃ f, step (sample 0x3000 0xF020) = .fault f := ⟨⟨_, rfl⟩, ⟨_, rfl⟩, _, rfl⟩

/-- An image that fits in the middle, one that ends at the last word, and the odd byte. -/
theorem witness_ImageLoadsItsWords :
    (([0x56] : List Byte).length ≤ 1 ∧ (0x3000#16).toNat + ([0x1234, 0x5678] : List Word).length ≤ 65536) ∧
    (([] : List Byte).length ≤ 1 ∧ (0xFFFF#16).toNat + ([0x0001] : List Word).length ≤ 65536) ∧
    ((0x0000#16).toNat < (0x3000#16).toNat ∧ (0x3000#16).toNat + 2 ≤ (0x3002#16).toNat) := by decide

theorem witness_BadImagesAreRejected : ([0x30] : List Byte).length < 2 ∧
    (([] : List Byte).length ≤ 1 ∧ 65536 < (0xFFFF#16).toNat + ([0x0001, 0x0002] : List Word).length) ∧
    loadStream [] (some [0x30]) = .error .malformed := ⟨by decide, by decide, rfl⟩

theorem witness_BootNeedsEveryImage :
    (∃ t, boot Config.gprInit 0 [] none none [some [0x30, 0x00, 0x12, 0x34]] = .ok t) ∧
    ∃ rs, boot Config.gprInit 0 [] none none [some [0x30, 0x00], some [0x30], none] = .error rs := ⟨⟨_, rfl⟩, _, rfl⟩

theorem witness_LaterImagesOverwriteEarlier : (0x3001#16).toNat + ([0x0009] : List Word).length ≤ 65536 ∧
    ((0x3000#16).toNat < (0x3001#16).toNat ∧ (0x3001#16).toNat + 1 ≤ (0x3002#16).toNat) := by decide

end Sys2Proof.Tests
end

section
/-! PROOFS. The flags tell the sign of the destination (10_state.md R28, R29). -/

namespace Sys2Proof.Machine

/-- The bit tests of R28, read as a comparison of the two's-complement number with 0. -/
theorem condTells_condOf (v : Word) : CondTells (condOf v) v := by
  have hzero : v.toInt = 0 ↔ v = 0 := by rw [← BitVec.toInt_inj]; rfl
  have hneg : v.msb = true ↔ v.toInt < 0 := by rw [BitVec.msb_eq_toInt, decide_eq_true_iff]
  unfold condOf CondTells
  split_ifs with h0 hmsb
  · exact .inl ⟨hzero.mpr h0, rfl⟩
  · exact .inr (.inl ⟨hneg.mp hmsb, rfl⟩)
  · have hne := mt hzero.mp h0
    have hge := mt hneg.mpr hmsb
    exact .inr (.inr ⟨by omega, rfl⟩)

/-- The end of a flag-setting instruction leaves in COND the sign of the value it leaves in the destination. -/
theorem condTells_writeResult (dr : Reg) (v : Word) (s : State) :
    CondTells (writeResult dr v s).cond ((writeResult dr v s).reg dr) := by
  rw [writeResult_cond, writeResult_reg, if_pos rfl]
  exact condTells_condOf v

/-- A routine that reads a character and leaves the machine running ends in `x[0] <- v; setcc(x[0])` (R183, R186). -/
theorem RoutineEnd.writes_result {v : BitVec 8} {s t : State} (h : RoutineEnd v s t) (hv : readsCharacter v = true)
    (hrun : t.running = true) : ∃ w u, t = writeResult trapReg w u := by
  cases h with
  | quiet hq => rw [hv] at hq; cases hq
  | character _ u b _ e => exact ⟨_, u, e⟩
  | stopped u r _ e => rw [e, State.raise_running] at hrun; cases hrun

/-- Every instruction that calls setcc and leaves the machine running ends in `x[DR] <- v; setcc(x[DR])` (R29). -/
theorem exec_setsFlags_writes_result {i : Instr} {dr : Reg} {s t : State} (hf : setsFlags i = true)
    (hd : destReg i = some dr) (h : exec i s = .next t) (hrun : t.running = true) : ∃ v u, t = writeResult dr v u := by
  by_cases ht : isTrap i = true
  · obtain ⟨v, hexec, -, hflags, hdest⟩ := exec_trap ht
    have hv : readsCharacter v = true := hflags ▸ hf
    rw [hdest, if_pos hv] at hd
    cases hd
    obtain ⟨u, hend, rfl⟩ := trap_cases ((hexec s).symm.trans h)
    obtain ⟨w, u', rfl⟩ := hend.writes_result hv hrun
    exact ⟨w, rawRestore u', rfl⟩
  · cases i with
    | addReg | addImm | not | ld | ldi | ldr | lea => cases hd; cases h; exact ⟨_, _, rfl⟩
    | andReg | andImm | br | jmp | ret | jsr | jsrr | st | sti | str | rti | res => cases hf
    | trap | getc | out | puts | inChar | putsp | halt => exact absurd rfl ht

/-- Settles O6: the first clause is R28's bit tests read as signs; the second, that every flag-setting instruction ends
in `writeResult`. -/
theorem setccTellsTheSign : Obligations.SetccTellsTheSign := by
  unfold Obligations.SetccTellsTheSign
  refine ⟨fun v s => ⟨condTells_condOf v, rfl⟩, fun i dr s t hf hd h hrun => ?_⟩
  obtain ⟨v, u, rfl⟩ := exec_setsFlags_writes_result hf hd h hrun
  exact condTells_writeResult dr v u

end Sys2Proof.Machine
end

section
/-! PROOFS. A store changes one word and triggers nothing; what each word is after the next poll (20_memory.md R53, R54). -/

namespace Sys2Proof.Machine

@[simp] theorem memWrite_mem (a v : Word) (s : State) : (memWrite a v s).mem = s.mem.write a v := rfl

/-- What the input source answers does not depend on memory (R36). -/
@[simp] theorem inPoll_memWrite_answer (a v : Word) (s : State) : (inPoll (memWrite a v s)).1 = (inPoll s).1 := by
  have hinput : (memWrite a v s).input = s.input := rfl
  have hrest : (memWrite a v s).inputRest = s.inputRest := rfl
  rcases inPoll_cases s with ⟨_, _, h, -⟩ | ⟨_, h, -⟩ | ⟨h, -⟩ <;> simp [inPoll, hinput, hrest, h]

/-- Each word after a poll: KBSR always anew, KBDR anew only with a byte, any other word as before (R53). -/
theorem poll_read (s : State) (b : Word) : (poll s).mem.read b =
    if b = Config.kbsrAddr then (if (inPoll s).1.isSome then Config.kbsrReady else Config.kbsrNotReady)
    else if b = Config.kbdrAddr then (inPoll s).1.elim (s.mem.read b) zext16
    else s.mem.read b := by
  rcases poll_cases s with ⟨c, hc, e⟩ | ⟨hc, e⟩ <;> simp [e, hc, Memory.read_write]

/-- A poll overwrites KBSR, so it leaves no trace of a word stored there. -/
theorem poll_memWrite_status_read (v : Word) (s : State) (b : Word) :
    (poll (memWrite Config.kbsrAddr v s)).mem.read b = (poll s).mem.read b := by
  rw [poll_read, poll_read, inPoll_memWrite_answer, memWrite_mem]
  by_cases hb : b = Config.kbsrAddr
  · rw [if_pos hb, if_pos hb]
  · rw [Memory.read_write_other _ _ hb]

/-- A word stored at KBDR_ADDR stays exactly when the next poll finds no byte. -/
theorem poll_memWrite_data_read (v : Word) (s : State) :
    (poll (memWrite Config.kbdrAddr v s)).mem.read Config.kbdrAddr =
      if (inPoll s).1.isSome then (poll s).mem.read Config.kbdrAddr else v := by
  have hne : Config.kbdrAddr ≠ Config.kbsrAddr := by decide
  rw [poll_read, poll_read, inPoll_memWrite_answer, memWrite_mem, Memory.read_write_same]
  cases (inPoll s).1 <;> simp [hne]

/-- Settles O8: the first clause is the two laws of a read after a write; the second, each word after a poll. -/
theorem memWriteStoresOneWord : Obligations.MemWriteStoresOneWord := by
  unfold Obligations.MemWriteStoresOneWord
  exact ⟨fun a v s => ⟨Memory.read_write_same _ a v, fun _ hb => Memory.read_write_other _ v hb, rfl⟩,
    fun v s => ⟨poll_memWrite_status_read v s, poll_memWrite_data_read v s⟩⟩

end Sys2Proof.Machine
end

section
/-! PROOFS. ADD, AND and NOT: what each puts in its destination, the flags, and what it leaves alone (40_operate.md R110 to R114). -/

namespace Sys2Proof.Machine

/-! ### The two ends of an operate instruction -/

theorem writeResult_reg_same (dr : Reg) (v : Word) (s : State) : (writeResult dr v s).reg dr = v := by
  rw [writeResult_reg, if_pos rfl]

theorem setReg_reg_same (dr : Reg) (v : Word) (s : State) : (s.setReg dr v).reg dr = v := by
  rw [State.setReg_reg, if_pos rfl]

/-- The flags after a flag-setting end and its frame: only the destination and COND are written (R28). -/
theorem writeResult_flags_frame (dr : Reg) (v : Word) (s : State) :
    CondTells (writeResult dr v s).cond ((writeResult dr v s).reg dr) ∧
    (∀ r, r ≠ dr → (writeResult dr v s).reg r = s.reg r) ∧
    writeResult dr v s = { s with regs := (writeResult dr v s).regs, cond := (writeResult dr v s).cond } :=
  ⟨condTells_writeResult dr v s, fun r hr => by rw [writeResult_reg, if_neg hr], rfl⟩

/-- The frame of an end without flags: only the destination is written. -/
theorem setReg_frame (dr : Reg) (v : Word) (s : State) :
    (∀ r, r ≠ dr → (s.setReg dr v).reg r = s.reg r) ∧ s.setReg dr v = { s with regs := (s.setReg dr v).regs } :=
  ⟨fun r hr => by rw [State.setReg_reg, if_neg hr], rfl⟩

/-- AND_SETS_FLAGS is false, so AND ends without flags (R112, R113; 90 C1). -/
theorem writeAnd_eq_setReg (dr : Reg) (v : Word) (s : State) : writeAnd dr v s = s.setReg dr v := rfl

/-! ### Each instruction's next state -/

theorem exec_addReg (dr sr1 sr2 : Reg) (s : State) :
    exec (.addReg dr sr1 sr2) s = .next (writeResult dr (s.reg sr1 + s.reg sr2) s) := rfl

theorem exec_addImm (dr sr1 : Reg) (imm5 : BitVec 5) (s : State) :
    exec (.addImm dr sr1 imm5) s = .next (writeResult dr (s.reg sr1 + immOperand imm5) s) := rfl

theorem exec_andReg (dr sr1 sr2 : Reg) (s : State) :
    exec (.andReg dr sr1 sr2) s = .next (s.setReg dr (s.reg sr1 &&& s.reg sr2)) :=
  congrArg Host.Outcome.next (writeAnd_eq_setReg dr _ s)

theorem exec_andImm (dr sr1 : Reg) (imm5 : BitVec 5) (s : State) :
    exec (.andImm dr sr1 imm5) s = .next (s.setReg dr (s.reg sr1 &&& immOperand imm5)) :=
  congrArg Host.Outcome.next (writeAnd_eq_setReg dr _ s)

theorem exec_not (dr sr : Reg) (s : State) : exec (.not dr sr) s = .next (writeResult dr (~~~ s.reg sr) s) := rfl

/-! ### The immediate bit by bit (R8, R85) -/

theorem getLsbD_immOperand (imm5 : BitVec 5) {j : Nat} (hj : j < 16) :
    (immOperand imm5).getLsbD j = if j < 5 then imm5.getLsbD j else imm5.msb := by
  rw [immOperand, sext16_eq_signExtend imm5 (by decide), BitVec.getLsbD_signExtend, decide_eq_true hj, Bool.true_and]

theorem getLsbD_and_immOperand (a : Word) (imm5 : BitVec 5) (j : Nat) :
    (a &&& immOperand imm5).getLsbD j = (a.getLsbD j && if j < 5 then imm5.getLsbD j else imm5.msb) := by
  rw [BitVec.getLsbD_and]
  by_cases hj : j < 16
  · rw [getLsbD_immOperand imm5 hj]
  · rw [BitVec.getLsbD_of_ge a j (by omega), Bool.false_and, Bool.false_and]

/-! ### The statements -/

/-- Settles O9: the machine's addition is the sum modulo 2^16. -/
theorem addRegisterAddsAndSetsFlags : Obligations.AddRegisterAddsAndSetsFlags := by
  unfold Obligations.AddRegisterAddsAndSetsFlags
  refine ⟨fun ir hop hmode => ?_, fun dr sr1 sr2 s => ⟨_, exec_addReg dr sr1 sr2 s, ?_, writeResult_flags_frame dr _ s⟩⟩
  · rw [decode_opcode_1 hop, hmode, if_neg Bool.false_ne_true]
  · rw [writeResult_reg_same]
    exact BitVec.toNat_add _ _

/-- Settles O10: adding the extended immediate is adding its signed value (`add_sext16`). -/
theorem addImmediateAddsAndSetsFlags : Obligations.AddImmediateAddsAndSetsFlags := by
  unfold Obligations.AddImmediateAddsAndSetsFlags
  refine ⟨fun ir hop hmode => ?_, fun dr sr1 imm5 s => ⟨_, exec_addImm dr sr1 imm5 s, ?_, writeResult_flags_frame dr _ s⟩⟩
  · rw [decode_opcode_1 hop, if_pos hmode]
  · rw [writeResult_reg_same]
    exact add_sext16 _ imm5 (by decide)

/-- Settles O11: AND writes its destination by `setReg` alone, so COND is in the frame. -/
theorem andRegisterLeavesFlags : Obligations.AndRegisterLeavesFlags := by
  unfold Obligations.AndRegisterLeavesFlags
  refine ⟨fun ir hop hmode => ?_, fun dr sr1 sr2 s => ⟨_, exec_andReg dr sr1 sr2 s, fun j => ?_, setReg_frame dr _ s⟩⟩
  · rw [decode_opcode_5 hop, hmode, if_neg Bool.false_ne_true]
  · rw [setReg_reg_same, BitVec.getLsbD_and]

/-- Settles O12: as O11, with the bits of the extended immediate. -/
theorem andImmediateLeavesFlags : Obligations.AndImmediateLeavesFlags := by
  unfold Obligations.AndImmediateLeavesFlags
  refine ⟨fun ir hop hmode => ?_, fun dr sr1 imm5 s => ⟨_, exec_andImm dr sr1 imm5 s, fun j => ?_, setReg_frame dr _ s⟩⟩
  · rw [decode_opcode_5 hop, if_pos hmode]
  · rw [setReg_reg_same, getLsbD_and_immOperand]

/-- Settles O13: the complement flips each of the 16 bits. -/
theorem notComplementsAndSetsFlags : Obligations.NotComplementsAndSetsFlags := by
  unfold Obligations.NotComplementsAndSetsFlags
  refine ⟨fun ir hop => decode_opcode_9 hop,
    fun dr sr s => ⟨_, exec_not dr sr s, fun j hj => ?_, writeResult_flags_frame dr _ s⟩⟩
  rw [writeResult_reg_same, BitVec.getLsbD_not, decide_eq_true hj, Bool.true_and]

end Sys2Proof.Machine
end

section
/-! PROOFS. JMP and RET only set PC; JSR links in R7 and goes to its target (41_control.md R131 to R133). -/

namespace Sys2Proof.Machine

/-! ### Each instruction's next state -/

theorem exec_jmp (baseR : Reg) (s : State) : exec (.jmp baseR) s = .next (s.setPc (s.reg baseR)) := rfl

theorem exec_ret (s : State) : exec .ret s = .next (s.setPc (s.reg retBase)) := rfl

/-- RET is JMP with base R7, so the row that a base selects makes no difference (R132). -/
theorem exec_decodeJmp (baseR : Reg) (s : State) : exec (decodeJmp baseR) s = .next (s.setPc (s.reg baseR)) := by
  rcases decodeJmp_cases baseR with ⟨hret, hrow⟩ | ⟨-, hrow⟩
  · rw [hrow, hret, exec_ret]
  · rw [hrow, exec_jmp]

theorem exec_jsr (off : BitVec 11) (s : State) :
    exec (.jsr off) s = .next ((link s).setPc (relAddr s.pc off.toInt)) := by
  rw [← jsrTarget_eq]
  rfl

/-! ### The link (R133, R136) -/

theorem link_reg_same (s : State) : (link s).reg linkReg = s.pc := setReg_reg_same linkReg s.pc s

theorem link_reg_other (s : State) {r : Reg} (hr : r ≠ linkReg) : (link s).reg r = s.reg r :=
  (setReg_frame linkReg s.pc s).1 r hr

/-! ### The statements -/

/-- Settles O15: a word of opcode 12 is JMP or RET by its base alone (`exec_decodeJmp`). -/
theorem jumpWordsGoToTheirBase : Obligations.JumpWordsGoToTheirBase := by
  unfold Obligations.JumpWordsGoToTheirBase
  refine ⟨fun ir s hop => ?_, exec_jmp, exec_ret⟩
  rw [decode_opcode_12 hop]
  exact exec_decodeJmp (regField ir 6) s

/-- Settles O16: the link writes R7 alone, and setting PC to the target leaves the registers as the link left them. -/
theorem jsrLinksAndBranches : Obligations.JsrLinksAndBranches := by
  unfold Obligations.JsrLinksAndBranches
  refine ⟨fun ir hop hmode => ?_, fun off s => ⟨_, exec_jsr off s, ?_, State.setPc_pc _ _, fun r hr => ?_, rfl⟩⟩
  · rw [decode_opcode_4 hop, if_pos hmode]
  · rw [State.setPc_reg]
    exact link_reg_same s
  · rw [State.setPc_reg, link_reg_other s hr]

end Sys2Proof.Machine
end

section
/-! PROOFS. LD, LDI and LDR load the word that MemRead gives, LEA loads the address itself, ST and STR store one word:
the flags and the frame of each (42_load_store.md R150 to R157). -/

namespace Sys2Proof.Machine

/-! ### The end of a load: one read, then a flag-setting write -/

/-- A read changes nothing but memory and the arrivals (R52, R53). -/
theorem memRead_frame (a : Word) (s : State) :
    (memRead a s).2 = { s with mem := (memRead a s).2.mem, input := (memRead a s).2.input } := by
  obtain ⟨_, _, -, e, -⟩ := memRead_state a s
  rw [e]
  rfl

/-- The frame of a load that starts after memory and the arrivals alone have changed, as a frame from before that. -/
theorem load_frame_trans {s u t : State} {rs : Vector Word 8} {c : Word} {m m' : Memory} {i i' : List Arrival}
    (hu : u = { s with mem := m, input := i }) (ht : t = { u with regs := rs, cond := c, mem := m', input := i' }) :
    t = { s with regs := t.regs, cond := t.cond, mem := t.mem, input := t.input } := by
  subst hu ht
  rfl

theorem loadFrom_eq (dr : Reg) (ea : Word) (s : State) :
    loadFrom dr ea s = writeResult dr (memRead ea s).1 (memRead ea s).2 := rfl

/-- What the end of a load does: its result, the flags, its frame by the read and by the state before it, the words that
no poll reaches, and the plain case (R55, R150 to R152). -/
theorem loadFrom_effect {dr : Reg} {ea : Word} {s t : State} (ht : t = loadFrom dr ea s) :
    t.reg dr = (memRead ea s).1 ∧ CondTells t.cond (t.reg dr) ∧ (∀ r, r ≠ dr → t.reg r = s.reg r) ∧
    t = { (memRead ea s).2 with regs := t.regs, cond := t.cond } ∧
    t = { s with regs := t.regs, cond := t.cond, mem := t.mem, input := t.input } ∧
    (∀ a, a ≠ Config.kbsrAddr → a ≠ Config.kbdrAddr → t.mem.read a = s.mem.read a) ∧
    (ea ≠ Config.kbsrAddr → t.reg dr = s.mem.read ea ∧ t.mem = s.mem ∧ t.input = s.input) := by
  rw [loadFrom_eq] at ht
  subst ht
  obtain ⟨hcond, hother, hframe⟩ := writeResult_flags_frame dr (memRead ea s).1 (memRead ea s).2
  refine ⟨writeResult_reg_same dr _ _, hcond, fun r hr => (hother r hr).trans (memRead_reg ea s r), hframe,
    load_frame_trans (memRead_frame ea s) hframe, fun a h1 h2 => memRead_other ea a s h1 h2, fun hea => ?_⟩
  rw [memRead_plain s hea]
  exact ⟨writeResult_reg_same dr _ s, rfl, rfl⟩

/-! ### The end of a store: one word changes (R54) -/

theorem storeTo_effect {sr : Reg} {ea : Word} {s t : State} (ht : t = storeTo sr ea s) :
    t.mem.read ea = s.reg sr ∧ (∀ a, a ≠ ea → t.mem.read a = s.mem.read a) ∧ t = { s with mem := t.mem } := by
  subst ht
  exact ⟨Memory.read_write_same _ ea _, fun _ ha => Memory.read_write_other _ _ ha, rfl⟩

/-! ### Each instruction's next state, its address as a base and a signed distance (R157) -/

theorem exec_ld (dr : Reg) (off : BitVec 9) (s : State) :
    exec (.ld dr off) s = .next (loadFrom dr (relAddr s.pc off.toInt) s) := by
  rw [← pcRelAddr_eq]
  rfl

theorem exec_ldi (dr : Reg) (off : BitVec 9) {s u : State} {ea : Word}
    (hptr : memRead (relAddr s.pc off.toInt) s = (ea, u)) : exec (.ldi dr off) s = .next (loadFrom dr ea u) := by
  have hind : indirectAddr s off = (ea, u) := by rw [indirectAddr, pcRelAddr_eq, hptr]
  change Host.Outcome.next (loadFrom dr (indirectAddr s off).1 (indirectAddr s off).2) = _
  rw [hind]

theorem exec_ldr (dr baseR : Reg) (off : BitVec 6) (s : State) :
    exec (.ldr dr baseR off) s = .next (loadFrom dr (relAddr (s.reg baseR) off.toInt) s) := by
  rw [← baseAddr_eq]
  rfl

theorem exec_lea (dr : Reg) (off : BitVec 9) (s : State) :
    exec (.lea dr off) s = .next (writeResult dr (relAddr s.pc off.toInt) s) := by
  rw [← pcRelAddr_eq]
  rfl

theorem exec_st (sr : Reg) (off : BitVec 9) (s : State) :
    exec (.st sr off) s = .next (storeTo sr (relAddr s.pc off.toInt) s) := by
  rw [← pcRelAddr_eq]
  rfl

theorem exec_str (sr baseR : Reg) (off : BitVec 6) (s : State) :
    exec (.str sr baseR off) s = .next (storeTo sr (relAddr (s.reg baseR) off.toInt) s) := by
  rw [← baseAddr_eq]
  rfl

/-! ### The statements -/

/-- Settles O18: LD is the end of a load at its PC-relative address. -/
theorem ldLoadsPcRelative : Obligations.LdLoadsPcRelative := by
  unfold Obligations.LdLoadsPcRelative
  exact ⟨fun ir hop => decode_opcode_2 hop, fun dr off s => ⟨_, exec_ld dr off s, loadFrom_effect rfl⟩⟩

/-- Settles O19: the data read starts from the state that the pointer read left, so each clause about the state before
LDI joins the effects of the two reads. -/
theorem ldiLoadsIndirect : Obligations.LdiLoadsIndirect := by
  unfold Obligations.LdiLoadsIndirect
  refine ⟨fun ir hop => decode_opcode_10 hop, fun dr off s u ea hptr => ⟨_, exec_ldi dr off hptr, ?_⟩⟩
  obtain ⟨hres, hcond, hregs, hread, hframe, hmem, hplain⟩ := loadFrom_effect (Eq.refl (loadFrom dr ea u))
  have hu : u = (memRead (relAddr s.pc off.toInt) s).2 := by rw [hptr]
  refine ⟨hres, hcond, fun r hr => ?_, hread, load_frame_trans (hu.trans (memRead_frame _ s)) hframe,
    fun a h1 h2 => ?_, fun hstat hea => ?_⟩
  · rw [hregs r hr, hu, memRead_reg]
  · rw [hmem a h1 h2, hu, memRead_other _ a s h1 h2]
  · rw [memRead_plain s hstat] at hptr
    cases hptr
    exact hplain hea

/-- Settles O20: LDR is the end of a load at an address made from the base as it was before DR is written. -/
theorem ldrLoadsBasePlusOffset : Obligations.LdrLoadsBasePlusOffset := by
  unfold Obligations.LdrLoadsBasePlusOffset
  exact ⟨fun ir hop => decode_opcode_6 hop, fun dr baseR off s => ⟨_, exec_ldr dr baseR off s, loadFrom_effect rfl⟩⟩

/-- Settles O21: LEA ends in `writeResult` on the state as it was, with no read before it. -/
theorem leaLoadsTheAddress : Obligations.LeaLoadsTheAddress := by
  unfold Obligations.LeaLoadsTheAddress
  exact ⟨fun ir hop => decode_opcode_14 hop, fun dr off s =>
    ⟨_, exec_lea dr off s, writeResult_reg_same dr _ s, writeResult_flags_frame dr _ s⟩⟩

/-- Settles O22: ST is the end of a store at its PC-relative address. -/
theorem stStoresPcRelative : Obligations.StStoresPcRelative := by
  unfold Obligations.StStoresPcRelative
  exact ⟨fun ir hop => decode_opcode_3 hop, fun sr off s => ⟨_, exec_st sr off s, storeTo_effect rfl⟩⟩

/-- Settles O24: STR is the end of a store at its base-plus-offset address. -/
theorem strStoresBasePlusOffset : Obligations.StrStoresBasePlusOffset := by
  unfold Obligations.StrStoresBasePlusOffset
  exact ⟨fun ir hop => decode_opcode_7 hop, fun sr baseR off s => ⟨_, exec_str sr baseR off s, storeTo_effect rfl⟩⟩

end Sys2Proof.Machine
end

section
/-! PROOFS. The two illegal opcodes (44_reserved.md R210 to R212). -/

namespace Sys2Proof.Machine

/-- The diagnostic and the stop as one update: every other field of the state is the old one. -/
theorem illegalOpcode_eq (op : BitVec 4) (s : State) : illegalOpcode op s = { s with
    running := false, haltReason := some (.illegalOpcode op), diag := s.diag ++ [Config.illegalDiag] } := rfl

theorem exec_rti (s : State) : exec .rti s = .next (illegalOpcode 8 s) := rfl

theorem exec_res (s : State) : exec .res s = .next (illegalOpcode 13 s) := rfl

/-- A word of opcode 8 or 13 stops the machine with its own opcode, whatever its other 12 bits. -/
theorem exec_decode_illegal {ir : Word} (hop : opcodeField ir = 8 ∨ opcodeField ir = 13) (s : State) :
    exec (decode ir) s = .next (illegalOpcode (opcodeField ir) s) := by
  obtain h8 | h13 := hop
  · rw [decode_opcode_8 h8, h8, exec_rti]
  · rw [decode_opcode_13 h13, h13, exec_res]

/-- Settles O41: each illegal opcode runs `illegalOpcode` of its number, which is the stated update. -/
theorem illegalOpcodesStop : Obligations.IllegalOpcodesStop := by
  unfold Obligations.IllegalOpcodesStop
  simp only [← illegalOpcode_eq]
  exact ⟨fun ir s hop => exec_decode_illegal hop s, exec_rti, exec_res⟩

end Sys2Proof.Machine
end

section
/-! PROOFS. What construction leaves in each part of the machine (70_reset_and_hazards.md R250). -/

namespace Sys2Proof.Machine

section
variable (g : Vector Word 8) (c : Word) (i : List Arrival) (e : Option Byte) (k : Option Nat)

/-- Construction lists no word, so every word reads as the unlisted one. -/
theorem construct_mem_read (a : Word) : (State.construct g c i e k).mem.read a = 0 := Memory.read_nil a

theorem construct_reg (r : Reg) : (State.construct g c i e k).reg r = g[r.val] := rfl

end

/-- Settles O46: memory and registers by their laws above, each other field as construction sets it; `State.reset` is the
construction with the values of `Config`, no arrivals, and a sink that never fails. -/
theorem constructionLeavesResetValues : Obligations.ConstructionLeavesResetValues := by
  unfold Obligations.ConstructionLeavesResetValues
  exact ⟨fun g c i e k => ⟨construct_mem_read g c i e k, rfl, rfl, rfl, rfl, construct_reg g c i e k, rfl, rfl, rfl⟩,
    Config.gprInit, Config.countInit, [], some Config.hostByte, none, rfl⟩

end Sys2Proof.Machine
end

section
/-! PROOFS. The decoder and the encoder undo each other, unused bits apart (30_encoding.md R83, R87, R90, R95). -/

namespace Sys2Proof

/-! ### The fields of each format, read back out of its word (R83) -/

/-- A register and a 9-bit offset: LD, LDI, LEA, ST, STI. -/
theorem offset9_fields (op : BitVec 4) (r : Reg) (off : BitVec 9) :
    regField (op ++ regBits r ++ off) 9 = r ∧ pcOffset9Field (op ++ regBits r ++ off) = off := by
  refine ⟨?_, BitVec.extractLsb'_append_eq_right⟩
  simp (disch := omega) only [regField, BitVec.extractLsb'_append_eq_of_le, BitVec.extractLsb'_append_eq_right,
    Nat.sub_self, regBits_toFin]

/-- Two registers and a 6-bit offset: LDR, STR, and NOT with its unused bits. -/
theorem offset6_fields (op : BitVec 4) (r b : Reg) (off : BitVec 6) :
    regField (op ++ regBits r ++ regBits b ++ off) 9 = r ∧ regField (op ++ regBits r ++ regBits b ++ off) 6 = b ∧
    offset6Field (op ++ regBits r ++ regBits b ++ off) = off := by
  refine ⟨?_, ?_, BitVec.extractLsb'_append_eq_right⟩ <;>
  simp (disch := omega) only [regField, BitVec.extractLsb'_append_eq_of_le, BitVec.extractLsb'_append_eq_right,
    Nat.reduceSub, Nat.sub_self, regBits_toFin]

/-- The immediate mode of ADD and AND. -/
theorem immediateMode_fields (op : BitVec 4) (r a : Reg) (imm : BitVec 5) :
    BitVec.getLsbD (op ++ regBits r ++ regBits a ++ 1#1 ++ imm) 5 = true ∧
    regField (op ++ regBits r ++ regBits a ++ 1#1 ++ imm) 9 = r ∧
    regField (op ++ regBits r ++ regBits a ++ 1#1 ++ imm) 6 = a ∧
    imm5Field (op ++ regBits r ++ regBits a ++ 1#1 ++ imm) = imm := by
  refine ⟨by simp only [BitVec.getLsbD_append]; rfl, ?_, ?_, BitVec.extractLsb'_append_eq_right⟩ <;>
  simp (disch := omega) only [regField, BitVec.extractLsb'_append_eq_of_le, BitVec.extractLsb'_append_eq_right,
    Nat.reduceSub, Nat.sub_self, regBits_toFin]

/-- The register mode of ADD and AND. -/
theorem registerMode_fields (op : BitVec 4) (r a b : Reg) :
    BitVec.getLsbD (op ++ regBits r ++ regBits a ++ 0#3 ++ regBits b) 5 = false ∧
    regField (op ++ regBits r ++ regBits a ++ 0#3 ++ regBits b) 9 = r ∧
    regField (op ++ regBits r ++ regBits a ++ 0#3 ++ regBits b) 6 = a ∧
    regField (op ++ regBits r ++ regBits a ++ 0#3 ++ regBits b) 0 = b := by
  refine ⟨by simp only [BitVec.getLsbD_append]; rfl, ?_, ?_, ?_⟩ <;>
  simp (disch := omega) only [regField, BitVec.extractLsb'_append_eq_of_le, BitVec.extractLsb'_append_eq_right,
    Nat.reduceSub, Nat.sub_self, regBits_toFin]

/-- BR: three bits and a 9-bit offset. -/
theorem br_fields (op : BitVec 4) (n z p : Bool) (off : BitVec 9) :
    BitVec.getLsbD (op ++ flagBit n ++ flagBit z ++ flagBit p ++ off) 11 = n ∧
    BitVec.getLsbD (op ++ flagBit n ++ flagBit z ++ flagBit p ++ off) 10 = z ∧
    BitVec.getLsbD (op ++ flagBit n ++ flagBit z ++ flagBit p ++ off) 9 = p ∧
    pcOffset9Field (op ++ flagBit n ++ flagBit z ++ flagBit p ++ off) = off := by
  refine ⟨?_, ?_, ?_, BitVec.extractLsb'_append_eq_right⟩ <;>
  (simp only [BitVec.getLsbD_append, flagBit]; simp)

/-- JSR: bit 11 set and an 11-bit offset. -/
theorem jsr_fields (op : BitVec 4) (off : BitVec 11) :
    BitVec.getLsbD (op ++ 1#1 ++ off) 11 = true ∧ pcOffset11Field (op ++ 1#1 ++ off) = off :=
  ⟨by simp only [BitVec.getLsbD_append]; rfl, BitVec.extractLsb'_append_eq_right⟩

/-- JSRR: bit 11 clear and a base register. -/
theorem jsrr_fields (op : BitVec 4) (b : Reg) :
    BitVec.getLsbD (op ++ 0#1 ++ 0#2 ++ regBits b ++ 0#6) 11 = false ∧
    regField (op ++ 0#1 ++ 0#2 ++ regBits b ++ 0#6) 6 = b := by
  refine ⟨by simp only [BitVec.getLsbD_append]; rfl, ?_⟩
  simp (disch := omega) only [regField, BitVec.extractLsb'_append_eq_of_le, BitVec.extractLsb'_append_eq_right,
    Nat.sub_self, regBits_toFin]

/-- JMP and RET: a base register. -/
theorem jmp_fields (op : BitVec 4) (b : Reg) : regField (op ++ 0#3 ++ regBits b ++ 0#6) 6 = b := by
  simp (disch := omega) only [regField, BitVec.extractLsb'_append_eq_of_le, BitVec.extractLsb'_append_eq_right,
    Nat.sub_self, regBits_toFin]

/-! ### Decoding an encoded instruction -/

/-- TRAP with none of the six vectors selects no other row (R182). -/
theorem decodeTrap_of_not_routine {v : BitVec 8} (h : isRoutineVector v = false) : decodeTrap v = .trap v := by
  rcases decodeTrap_cases v with ⟨rfl, -⟩ | ⟨rfl, -⟩ | ⟨rfl, -⟩ | ⟨rfl, -⟩ | ⟨rfl, -⟩ | ⟨rfl, -⟩ | ⟨-, hrow⟩
  iterate 6 exact absurd h (by decide)
  exact hrow

theorem decodeTrap_of_wellFormed {v : BitVec 8} (h : (Instr.trap v).wellFormed = true) : decodeTrap v = .trap v :=
  decodeTrap_of_not_routine (by simpa [Instr.wellFormed] using h)

/-- The vector of a TRAP word is its low byte (R86). -/
theorem decode_trapWord (v : BitVec 8) : decode (trapWord v) = decodeTrap v := by
  have hop : opcodeField (trapWord v) = 15 := Laws.EncodeOpcode.trap v
  rw [decode_opcode_15 hop]
  exact congrArg decodeTrap BitVec.extractLsb'_append_eq_right

/-- Settles O2: the word of each row carries the row's opcode number (`Laws.EncodeOpcode`), and the fields that the
decoder then reads are those that the encoder put there. -/
theorem decodeOfEncodeIsIdentity : Obligations.DecodeOfEncodeIsIdentity := by
  unfold Obligations.DecodeOfEncodeIsIdentity
  intro i hwf
  cases i with
  | addReg dr sr1 sr2 =>
    rw [decode_opcode_1 (Laws.EncodeOpcode.addReg ..)]
    simp only [encode, registerMode_fields, Bool.false_eq_true, if_false]
  | addImm dr sr1 imm5 =>
    rw [decode_opcode_1 (Laws.EncodeOpcode.addImm ..)]
    simp only [encode, immediateMode_fields, if_true]
  | andReg dr sr1 sr2 =>
    rw [decode_opcode_5 (Laws.EncodeOpcode.andReg ..)]
    simp only [encode, registerMode_fields, Bool.false_eq_true, if_false]
  | andImm dr sr1 imm5 =>
    rw [decode_opcode_5 (Laws.EncodeOpcode.andImm ..)]
    simp only [encode, immediateMode_fields, if_true]
  | not dr sr =>
    rw [decode_opcode_9 (Laws.EncodeOpcode.not ..)]
    simp only [encode, offset6_fields]
  | br n z p off =>
    rw [decode_opcode_0 (Laws.EncodeOpcode.br ..)]
    simp only [encode, br_fields]
  | jmp baseR =>
    have hbase : baseR ≠ retBase := bne_iff_ne.mp hwf
    rw [decode_opcode_12 (Laws.EncodeOpcode.jmp ..)]
    simp only [encode, jmp_fields, decodeJmp, if_neg hbase]
  | ret => decide
  | jsr off =>
    rw [decode_opcode_4 (Laws.EncodeOpcode.jsr ..)]
    simp only [encode, jsr_fields, if_true]
  | jsrr baseR =>
    rw [decode_opcode_4 (Laws.EncodeOpcode.jsrr ..)]
    simp only [encode, jsrr_fields, Bool.false_eq_true, if_false]
  | ld dr off =>
    rw [decode_opcode_2 (Laws.EncodeOpcode.ld ..)]
    simp only [encode, offset9_fields]
  | ldi dr off =>
    rw [decode_opcode_10 (Laws.EncodeOpcode.ldi ..)]
    simp only [encode, offset9_fields]
  | ldr dr baseR off =>
    rw [decode_opcode_6 (Laws.EncodeOpcode.ldr ..)]
    simp only [encode, offset6_fields]
  | lea dr off =>
    rw [decode_opcode_14 (Laws.EncodeOpcode.lea ..)]
    simp only [encode, offset9_fields]
  | st sr off =>
    rw [decode_opcode_3 (Laws.EncodeOpcode.st ..)]
    simp only [encode, offset9_fields]
  | sti sr off =>
    rw [decode_opcode_11 (Laws.EncodeOpcode.sti ..)]
    simp only [encode, offset9_fields]
  | str sr baseR off =>
    rw [decode_opcode_7 (Laws.EncodeOpcode.str ..)]
    simp only [encode, offset6_fields]
  | trap v => exact (decode_trapWord v).trans (decodeTrap_of_wellFormed hwf)
  | getc | out | puts | inChar | putsp | halt => exact decode_trapWord _
  | rti | res => decide

/-! ### A word as its fields side by side, its unused bits cleared (R83, R87) -/

section
variable {ir : Word} {op : BitVec 4}

/-- Two neighbouring fields are one field. -/
theorem join_fields (ir : Word) (lo m n : Nat) :
    ir.extractLsb' (lo + n) m ++ ir.extractLsb' lo n = ir.extractLsb' lo (m + n) :=
  BitVec.extractLsb'_append_extractLsb'_eq_extractLsb' rfl

/-- One bit of a word as a 1-bit field. -/
theorem flagBit_getLsbD (ir : Word) (j : Nat) : flagBit (ir.getLsbD j) = ir.extractLsb' j 1 := by
  ext i hi
  obtain rfl : i = 0 := by omega
  simp [flagBit]

/-- A register and the low 9 bits. -/
theorem word_eq_offset9 (h : opcodeField ir = op) :
    op ++ regBits (regField ir 9) ++ pcOffset9Field ir = ir := by
  subst h
  rw [regBits_regField, opcodeField, join_fields ir 9 4 3, pcOffset9Field, join_fields ir 0 7 9]
  exact BitVec.extractLsb'_eq_self

/-- Two registers and the low 6 bits. -/
theorem word_eq_offset6 (h : opcodeField ir = op) :
    op ++ regBits (regField ir 9) ++ regBits (regField ir 6) ++ offset6Field ir = ir := by
  subst h
  rw [regBits_regField, regBits_regField, opcodeField, join_fields ir 9 4 3, join_fields ir 6 7 3, offset6Field,
    join_fields ir 0 10 6]
  exact BitVec.extractLsb'_eq_self

/-- Two registers, the mode bit and the low 5 bits. -/
theorem word_eq_immediateMode (h : opcodeField ir = op) :
    op ++ regBits (regField ir 9) ++ regBits (regField ir 6) ++ flagBit (ir.getLsbD 5) ++ imm5Field ir = ir := by
  subst h
  rw [regBits_regField, regBits_regField, flagBit_getLsbD, opcodeField, join_fields ir 9 4 3, join_fields ir 6 7 3,
    join_fields ir 5 10 1, imm5Field, join_fields ir 0 11 5]
  exact BitVec.extractLsb'_eq_self

/-- Two registers, the mode bit with the two unused bits, and a register. -/
theorem word_eq_registerMode (h : opcodeField ir = op) :
    op ++ regBits (regField ir 9) ++ regBits (regField ir 6) ++ (flagBit (ir.getLsbD 5) ++ ir.extractLsb' 3 2) ++
      regBits (regField ir 0) = ir := by
  subst h
  rw [regBits_regField, regBits_regField, regBits_regField, flagBit_getLsbD, opcodeField, join_fields ir 9 4 3,
    join_fields ir 6 7 3, join_fields ir 3 1 2, join_fields ir 3 10 3, join_fields ir 0 13 3]
  exact BitVec.extractLsb'_eq_self

/-- The three bits n, z, p and the low 9 bits. -/
theorem word_eq_br (h : opcodeField ir = op) :
    op ++ flagBit (ir.getLsbD 11) ++ flagBit (ir.getLsbD 10) ++ flagBit (ir.getLsbD 9) ++ pcOffset9Field ir = ir := by
  subst h
  rw [flagBit_getLsbD, flagBit_getLsbD, flagBit_getLsbD, opcodeField, join_fields ir 11 4 1, join_fields ir 10 5 1,
    join_fields ir 9 6 1, pcOffset9Field, join_fields ir 0 7 9]
  exact BitVec.extractLsb'_eq_self

/-- Bit 11 and the low 11 bits. -/
theorem word_eq_jsr (h : opcodeField ir = op) :
    op ++ flagBit (ir.getLsbD 11) ++ pcOffset11Field ir = ir := by
  subst h
  rw [flagBit_getLsbD, opcodeField, join_fields ir 11 4 1, pcOffset11Field, join_fields ir 0 5 11]
  exact BitVec.extractLsb'_eq_self

/-- Bit 11, two unused bits, a register and the low 6 bits. -/
theorem word_eq_jsrr (h : opcodeField ir = op) :
    op ++ flagBit (ir.getLsbD 11) ++ ir.extractLsb' 9 2 ++ regBits (regField ir 6) ++ offset6Field ir = ir := by
  subst h
  rw [flagBit_getLsbD, regBits_regField, opcodeField, join_fields ir 11 4 1, join_fields ir 9 5 2, join_fields ir 6 7 3,
    offset6Field, join_fields ir 0 10 6]
  exact BitVec.extractLsb'_eq_self

/-- Four unused bits and the vector. -/
theorem word_eq_trap (h : opcodeField ir = op) :
    op ++ ir.extractLsb' 8 4 ++ trapvect8Field ir = ir := by
  subst h
  rw [opcodeField, join_fields ir 8 4 4, trapvect8Field, join_fields ir 0 8 8]
  exact BitVec.extractLsb'_eq_self

/-- Twelve unused bits. -/
theorem word_eq_illegal (h : opcodeField ir = op) :
    op ++ ir.extractLsb' 0 12 = ir := by
  subst h
  rw [opcodeField, join_fields ir 0 4 12]
  exact BitVec.extractLsb'_eq_self

/-! ### A word with the bits of each mask cleared -/

theorem and_mask_registerMode (h : opcodeField ir = op) (hmode : ir.getLsbD 5 = false) :
    ir &&& 0xFFE7 = op ++ regBits (regField ir 9) ++ regBits (regField ir 6) ++ 0#3 ++ regBits (regField ir 0) :=
  calc ir &&& 0xFFE7
    _ = (op ++ regBits (regField ir 9) ++ regBits (regField ir 6) ++ (flagBit (ir.getLsbD 5) ++ ir.extractLsb' 3 2) ++
          regBits (regField ir 0)) &&&
        (BitVec.allOnes 4 ++ BitVec.allOnes 3 ++ BitVec.allOnes 3 ++ (BitVec.allOnes 1 ++ 0#2) ++
          BitVec.allOnes 3) := by
      rw [word_eq_registerMode h]
      rfl
    _ = op ++ regBits (regField ir 9) ++ regBits (regField ir 6) ++ 0#3 ++ regBits (regField ir 0) := by
      simp only [hmode, BitVec.and_append, BitVec.and_allOnes, BitVec.and_zero]
      rfl

theorem and_mask_not (h : opcodeField ir = op) :
    ir &&& 0xFFC0 = op ++ regBits (regField ir 9) ++ regBits (regField ir 6) ++ 0#6 :=
  calc ir &&& 0xFFC0
    _ = (op ++ regBits (regField ir 9) ++ regBits (regField ir 6) ++ offset6Field ir) &&&
        (BitVec.allOnes 4 ++ BitVec.allOnes 3 ++ BitVec.allOnes 3 ++ 0#6) := by
      rw [word_eq_offset6 h]
      rfl
    _ = op ++ regBits (regField ir 9) ++ regBits (regField ir 6) ++ 0#6 := by
      simp only [BitVec.and_append, BitVec.and_allOnes, BitVec.and_zero]

theorem and_mask_jmp (h : opcodeField ir = op) :
    ir &&& 0xF1C0 = op ++ 0#3 ++ regBits (regField ir 6) ++ 0#6 :=
  calc ir &&& 0xF1C0
    _ = (op ++ regBits (regField ir 9) ++ regBits (regField ir 6) ++ offset6Field ir) &&&
        (BitVec.allOnes 4 ++ 0#3 ++ BitVec.allOnes 3 ++ 0#6) := by
      rw [word_eq_offset6 h]
      rfl
    _ = op ++ 0#3 ++ regBits (regField ir 6) ++ 0#6 := by
      simp only [BitVec.and_append, BitVec.and_allOnes, BitVec.and_zero]

theorem and_mask_jsrr (h : opcodeField ir = op) :
    ir &&& 0xF9C0 = op ++ flagBit (ir.getLsbD 11) ++ 0#2 ++ regBits (regField ir 6) ++ 0#6 :=
  calc ir &&& 0xF9C0
    _ = (op ++ flagBit (ir.getLsbD 11) ++ ir.extractLsb' 9 2 ++ regBits (regField ir 6) ++ offset6Field ir) &&&
        (BitVec.allOnes 4 ++ BitVec.allOnes 1 ++ 0#2 ++ BitVec.allOnes 3 ++ 0#6) := by
      rw [word_eq_jsrr h]
      rfl
    _ = op ++ flagBit (ir.getLsbD 11) ++ 0#2 ++ regBits (regField ir 6) ++ 0#6 := by
      simp only [BitVec.and_append, BitVec.and_allOnes, BitVec.and_zero]

theorem and_mask_trap (h : opcodeField ir = op) :
    ir &&& 0xF0FF = op ++ 0#4 ++ trapvect8Field ir :=
  calc ir &&& 0xF0FF
    _ = (op ++ ir.extractLsb' 8 4 ++ trapvect8Field ir) &&&
        (BitVec.allOnes 4 ++ 0#4 ++ BitVec.allOnes 8) := by
      rw [word_eq_trap h]
      rfl
    _ = op ++ 0#4 ++ trapvect8Field ir := by
      simp only [BitVec.and_append, BitVec.and_allOnes, BitVec.and_zero]

theorem and_mask_illegal (h : opcodeField ir = op) :
    ir &&& 0xF000 = op ++ 0#12 :=
  calc ir &&& 0xF000
    _ = (op ++ ir.extractLsb' 0 12) &&& (BitVec.allOnes 4 ++ 0#12) := by
      rw [word_eq_illegal h]
      rfl
    _ = op ++ 0#12 := by
      simp only [BitVec.and_append, BitVec.and_allOnes, BitVec.and_zero]

/-- The rows whose format has no unused bit whatever the word's other bits (R83). -/
theorem and_usedMask_all (h : opcodeField ir ∈ [0, 2, 3, 6, 7, 10, 11, 14]) : ir &&& usedMask ir = ir := by
  have hall : usedMask ir = BitVec.allOnes 16 := by
    simp only [List.mem_cons, List.not_mem_nil, or_false] at h
    rcases h with h | h | h | h | h | h | h | h <;> simp [usedMask, h]
  rw [hall, BitVec.and_allOnes]

/-! ### Encoding a decoded word -/

/-- Whichever row a vector selects, its word is the TRAP word of the vector, and it is well-formed (R182). -/
theorem encode_decodeTrap (v : BitVec 8) : encode (decodeTrap v) = trapWord v ∧ (decodeTrap v).wellFormed = true := by
  rcases decodeTrap_cases v with ⟨rfl, h⟩ | ⟨rfl, h⟩ | ⟨rfl, h⟩ | ⟨rfl, h⟩ | ⟨rfl, h⟩ | ⟨rfl, h⟩ | ⟨hv, h⟩ <;> rw [h]
  iterate 6 exact ⟨rfl, rfl⟩
  exact ⟨rfl, by rw [Instr.wellFormed, hv, Bool.not_false]⟩

/-- Whichever row a base selects, its word is the JMP word of the base, and it is well-formed (R132). -/
theorem encode_decodeJmp (r : Reg) : encode (decodeJmp r) = 12#4 ++ 0#3 ++ regBits r ++ 0#6 ∧
    (decodeJmp r).wellFormed = true := by
  rcases decodeJmp_cases r with ⟨rfl, h⟩ | ⟨hr, h⟩ <;> rw [h]
  · exact ⟨rfl, rfl⟩
  · exact ⟨rfl, bne_iff_ne.mpr hr⟩

/-- What the encoder puts back for ADD and AND in register mode, once the decoder has read it. -/
theorem registerMode_word (h : opcodeField ir = op) (hop : op = 1 ∨ op = 5) (hmode : ir.getLsbD 5 = false) :
    op ++ regBits (regField ir 9) ++ regBits (regField ir 6) ++ 0#3 ++ regBits (regField ir 0) =
      ir &&& usedMask ir := by
  have hmask : usedMask ir = 0xFFE7 := by
    rcases hop with rfl | rfl <;> simp [-BitVec.getLsbD_eq_getElem, usedMask, h, hmode]
  rw [hmask]
  exact (and_mask_registerMode h hmode).symm

/-- The same in immediate mode, which leaves no bit unused. -/
theorem immediateMode_word (h : opcodeField ir = op) (hop : op = 1 ∨ op = 5) (hmode : ir.getLsbD 5 = true) :
    op ++ regBits (regField ir 9) ++ regBits (regField ir 6) ++ 1#1 ++ imm5Field ir = ir &&& usedMask ir := by
  have hmask : usedMask ir = BitVec.allOnes 16 := by
    rcases hop with rfl | rfl <;> simp [-BitVec.getLsbD_eq_getElem, usedMask, h, hmode]
  rw [hmask, BitVec.and_allOnes]
  have hword := word_eq_immediateMode h
  rw [hmode] at hword
  exact hword

/-- Settles O3: in each row of the opcode map the encoder puts back the fields that the decoder read, which are the whole
word but for the bits that the row's mask clears. -/
theorem encodeOfDecodeClearsUnusedBits : Obligations.EncodeOfDecodeClearsUnusedBits := by
  unfold Obligations.EncodeOfDecodeClearsUnusedBits
  intro ir
  rcases opcodeField_cases ir with h | h | h | h | h | h | h | h | h | h | h | h | h | h | h | h
  · rw [decode_opcode_0 h, and_usedMask_all (by simp [h])]
    exact ⟨word_eq_br h, rfl⟩
  · rw [decode_opcode_1 h]
    split
    · next hmode => exact ⟨immediateMode_word h (.inl rfl) hmode, rfl⟩
    · next hmode => exact ⟨registerMode_word h (.inl rfl) (Bool.eq_false_of_not_eq_true hmode), rfl⟩
  · rw [decode_opcode_2 h, and_usedMask_all (by simp [h])]
    exact ⟨word_eq_offset9 h, rfl⟩
  · rw [decode_opcode_3 h, and_usedMask_all (by simp [h])]
    exact ⟨word_eq_offset9 h, rfl⟩
  · rw [decode_opcode_4 h]
    split
    · next hbit =>
      have hword := word_eq_jsr h
      rw [hbit] at hword
      rw [show usedMask ir = BitVec.allOnes 16 by simp [usedMask, h, hbit], BitVec.and_allOnes]
      exact ⟨hword, rfl⟩
    · next hbit =>
      rw [show usedMask ir = 0xF9C0 by simp [-BitVec.getLsbD_eq_getElem, usedMask, h, hbit], and_mask_jsrr h,
        Bool.eq_false_of_not_eq_true hbit]
      exact ⟨rfl, rfl⟩
  · rw [decode_opcode_5 h]
    split
    · next hmode => exact ⟨immediateMode_word h (.inr rfl) hmode, rfl⟩
    · next hmode => exact ⟨registerMode_word h (.inr rfl) (Bool.eq_false_of_not_eq_true hmode), rfl⟩
  · rw [decode_opcode_6 h, and_usedMask_all (by simp [h])]
    exact ⟨word_eq_offset6 h, rfl⟩
  · rw [decode_opcode_7 h, and_usedMask_all (by simp [h])]
    exact ⟨word_eq_offset6 h, rfl⟩
  · rw [decode_opcode_8 h, show usedMask ir = 0xF000 by simp [usedMask, h], and_mask_illegal h]
    exact ⟨rfl, rfl⟩
  · rw [decode_opcode_9 h, show usedMask ir = 0xFFC0 by simp [usedMask, h], and_mask_not h]
    exact ⟨rfl, rfl⟩
  · rw [decode_opcode_10 h, and_usedMask_all (by simp [h])]
    exact ⟨word_eq_offset9 h, rfl⟩
  · rw [decode_opcode_11 h, and_usedMask_all (by simp [h])]
    exact ⟨word_eq_offset9 h, rfl⟩
  · rw [decode_opcode_12 h, show usedMask ir = 0xF1C0 by simp [usedMask, h], and_mask_jmp h]
    exact encode_decodeJmp _
  · rw [decode_opcode_13 h, show usedMask ir = 0xF000 by simp [usedMask, h], and_mask_illegal h]
    exact ⟨rfl, rfl⟩
  · rw [decode_opcode_14 h, and_usedMask_all (by simp [h])]
    exact ⟨word_eq_offset9 h, rfl⟩
  · rw [decode_opcode_15 h, show usedMask ir = 0xF0FF by simp [usedMask, h], and_mask_trap h]
    exact encode_decodeTrap _

end

/-! ### Words that differ only in unused bits (R87) -/

/-- A mask keeps the whole opcode. -/
theorem opcodeField_usedMask (ir : Word) : opcodeField (usedMask ir) = BitVec.allOnes 4 := by
  unfold usedMask
  split <;> (try split) <;> rfl

/-- The rows with a mode bit keep it (R83). -/
theorem usedMask_modeBit {ir : Word} :
    (opcodeField ir = 1 ∨ opcodeField ir = 5 → (usedMask ir).getLsbD 5 = true) ∧
    (opcodeField ir = 4 → (usedMask ir).getLsbD 11 = true) := by
  refine ⟨fun h => ?_, fun h => ?_⟩
  · have hmask : usedMask ir = if ir.getLsbD 5 then 0xFFFF else 0xFFE7 := by rcases h with h | h <;> simp [usedMask, h]
    rw [hmask]
    split <;> rfl
  · rw [show usedMask ir = if ir.getLsbD 11 then 0xFFFF else 0xF9C0 by simp [usedMask, h]]
    split <;> rfl

/-- Two words that agree in the bits that the first one's format reads are of one format. -/
theorem usedMask_congr {v w : Word} (hmask : v &&& usedMask v = w &&& usedMask v) : usedMask w = usedMask v := by
  have hop : opcodeField w = opcodeField v := by
    have hkeep (u : Word) : opcodeField (u &&& usedMask v) = opcodeField u := by
      rw [opcodeField, BitVec.extractLsb'_and, ← opcodeField, ← opcodeField, opcodeField_usedMask, BitVec.and_allOnes]
    rw [← hkeep w, ← hmask, hkeep v]
  have hbit {j : Nat} (hj : (usedMask v).getLsbD j = true) : w.getLsbD j = v.getLsbD j := by
    simpa [-BitVec.getLsbD_eq_getElem, hj] using (congrArg (BitVec.getLsbD · j) hmask).symm
  have hmode (h : opcodeField v = 1 ∨ opcodeField v = 5) : w.getLsbD 5 = v.getLsbD 5 := hbit (usedMask_modeBit.1 h)
  have hlink (h : opcodeField v = 4) : w.getLsbD 11 = v.getLsbD 11 := hbit (usedMask_modeBit.2 h)
  rcases opcodeField_cases v with h | h | h | h | h | h | h | h | h | h | h | h | h | h | h | h <;>
    simp [-BitVec.getLsbD_eq_getElem, usedMask, hop, h, hmode, hlink]

/-- Settles O4: two such words have one word with the unused bits cleared, which decodes as each of them does. -/
theorem unusedBitsAreNotRead : Obligations.UnusedBitsAreNotRead := by
  unfold Obligations.UnusedBitsAreNotRead
  intro v w s hmask
  have hdecode (u : Word) : decode (u &&& usedMask u) = decode u := by
    obtain ⟨henc, hwf⟩ := encodeOfDecodeClearsUnusedBits u
    rw [← henc, decodeOfEncodeIsIdentity _ hwf]
  have hvw : decode v = decode w := by rw [← hdecode v, hmask, ← usedMask_congr hmask, hdecode w]
  exact ⟨hvw, by rw [hvw]⟩

/-- Settles O1: each word is a concrete one, so the decoder runs on it. -/
theorem specWordsDecode : Obligations.SpecWordsDecode := by
  unfold Obligations.SpecWordsDecode
  decide

end Sys2Proof
end

section
/-! PROOFS. What an instruction may write, said once for all of them (10_state.md section 10). -/

namespace Sys2Proof.Machine

/-! ### What may be written: a register, PC, COND, memory beside the polled words -/

/-- Of registers only `dest` is written, PC only by `control`, COND only by `flags`, and a word that no poll reaches only
by `store`. -/
structure Writes (dest : Option Reg) (control flags store : Bool) (s t : State) : Prop where
  reg : ∀ r, dest ≠ some r → t.reg r = s.reg r
  pc : control = false → t.pc = s.pc
  cond : flags = false → t.cond = s.cond
  mem : store = false → ∀ a, a ≠ Config.kbsrAddr → a ≠ Config.kbdrAddr → t.mem.read a = s.mem.read a

section
variable {d : Option Reg} {c f m : Bool}

theorem Writes.refl (s : State) : Writes d c f m s s :=
  ⟨fun _ _ => rfl, fun _ => rfl, fun _ => rfl, fun _ _ _ _ => rfl⟩

theorem Writes.trans {s t u : State} (h : Writes d c f m s t) (k : Writes d c f m t u) : Writes d c f m s u :=
  ⟨fun r hr => (k.reg r hr).trans (h.reg r hr), fun hc => (k.pc hc).trans (h.pc hc),
    fun hf => (k.cond hf).trans (h.cond hf), fun hm a h1 h2 => (k.mem hm a h1 h2).trans (h.mem hm a h1 h2)⟩

theorem writes_setReg (r : Reg) (v : Word) (s : State) : Writes (some r) c f m s (s.setReg r v) :=
  ⟨fun _ hr => by rw [State.setReg_reg, if_neg (hr <| congrArg some ·.symm)], fun _ => rfl, fun _ => rfl,
    fun _ _ _ _ => rfl⟩

theorem writes_writeResult (r : Reg) (v : Word) (s : State) : Writes (some r) c true m s (writeResult r v s) :=
  ⟨fun _ hr => by rw [writeResult_reg, if_neg (hr <| congrArg some ·.symm)], fun _ => rfl, fun hf => (nomatch hf),
    fun _ _ _ _ => rfl⟩

theorem writes_setPc (v : Word) (s : State) : Writes d true f m s (s.setPc v) :=
  ⟨fun _ _ => rfl, fun hc => (nomatch hc), fun _ => rfl, fun _ _ _ _ => rfl⟩

theorem writes_memRead (a : Word) (s : State) : Writes d c f m s (memRead a s).2 :=
  ⟨fun r _ => memRead_reg a s r, fun _ => memRead_pc a s, fun _ => memRead_cond a s, fun _ b => memRead_other a b s⟩

theorem writes_memWrite (a v : Word) (s : State) : Writes d c f true s (memWrite a v s) :=
  ⟨fun _ _ => rfl, fun _ => rfl, fun _ => rfl, fun hm => nomatch hm⟩

theorem writes_loadFrom (r : Reg) (a : Word) (s : State) : Writes (some r) c true m s (loadFrom r a s) :=
  (writes_memRead a s).trans (writes_writeResult r _ _)

end

/-! ### The three kinds of instructions -/

theorem instr_kinds (i : Instr) : isTrap i = true ∨ isIllegal i = true ∨ (isTrap i = false ∧ isIllegal i = false) := by
  cases i <;> simp [isTrap, isIllegal]

/-- A trap that answers: its vector, what the vector says of the row, and its routine's end between the brackets. -/
theorem exec_trap_cases {i : Instr} {s t : State} (hi : isTrap i = true) (h : exec i s = .next t) :
    ∃ v u, (i = .trap v ∨ i = decodeTrap v) ∧ setsFlags i = readsCharacter v ∧
      (destReg i = if readsCharacter v then some trapReg else none) ∧ RoutineEnd v (rawEnter s) u ∧ t = rawRestore u := by
  obtain ⟨v, hexec, hrow, hflags, hdest⟩ := exec_trap hi
  obtain ⟨u, hend, e⟩ := trap_cases ((hexec s).symm.trans h)
  exact ⟨v, u, hrow, hflags, hdest, hend, e⟩

/-- An illegal opcode that answers has stopped with its own number. -/
theorem exec_illegal_cases {i : Instr} {s t : State} (hi : isIllegal i = true) (h : exec i s = .next t) :
    ∃ op, (op = 8 ∧ i = .rti ∨ op = 13 ∧ i = .res) ∧ t = illegalOpcode op s := by
  obtain ⟨op, hop, hexec⟩ := exec_illegal hi
  cases (hexec s).symm.trans h
  exact ⟨op, hop, rfl⟩

/-- What a trap routine may write, by its vector (R190). -/
theorem RoutineEnd.writes {v : BitVec 8} {s t : State} (h : RoutineEnd v s t) (c m : Bool) :
    Writes (if readsCharacter v then some trapReg else none) c (readsCharacter v) m s t := by
  have hframe := h.frame
  refine ⟨fun r hr => ?_, fun _ => hframe.pc, fun hv => (h.quiet_result hv).2, fun _ => hframe.mem⟩
  cases hv : readsCharacter v with
  | false =>
    by_cases hr0 : r = trapReg
    · exact hr0 ▸ (h.quiet_result hv).1
    · exact hframe.regs r hr0
  | true =>
    rw [hv, if_pos rfl] at hr
    exact hframe.regs r fun e => hr (e ▸ rfl)

/-- An instruction writes what its class says and nothing else. -/
theorem exec_writes {i : Instr} {s t : State} (h : exec i s = .next t) :
    Writes (destReg i) (isControl i) (setsFlags i) (isStore i) s t := by
  cases i with
  | addReg | addImm | not | lea => cases h; exact writes_writeResult _ _ s
  | andReg | andImm => cases h; exact writes_setReg _ _ s
  | br n z p off =>
    cases h
    split
    · exact writes_setPc _ s
    · exact Writes.refl s
  | jmp | ret => cases h; exact writes_setPc _ s
  | jsr | jsrr => cases h; exact (writes_setReg _ _ s).trans (writes_setPc _ _)
  | ld | ldr => cases h; exact writes_loadFrom _ _ s
  | ldi => cases h; exact (writes_memRead _ s).trans (writes_loadFrom _ _ _)
  | st | str => cases h; exact writes_memWrite _ _ s
  | sti => cases h; exact (writes_memRead _ s).trans (writes_memWrite _ _ _)
  | rti | res => cases h; exact ⟨fun _ _ => rfl, fun _ => rfl, fun _ => rfl, fun _ _ _ _ => rfl⟩
  | trap | getc | out | puts | inChar | putsp | halt =>
    obtain ⟨v, u, -, hflags, hdest, hend, rfl⟩ := exec_trap_cases rfl h
    obtain ⟨hreg, hpc, hcond, hmem⟩ := hend.writes false false
    rw [hflags, hdest]
    exact ⟨hreg, hpc, hcond, hmem⟩

/-- Settles O49: COND is in the frame of an instruction that sets no flags. -/
theorem onlySetccInstructionsWriteCond : Obligations.OnlySetccInstructionsWriteCond := by
  unfold Obligations.OnlySetccInstructionsWriteCond
  exact fun _ _ _ hf h => (exec_writes h).cond hf

/-- Settles O50: the fetch increments PC, and PC is in the frame of an instruction that is no control transfer. -/
theorem onlyControlTransferWritesPc : Obligations.OnlyControlTransferWritesPc := by
  unfold Obligations.OnlyControlTransferWritesPc
  exact ⟨fun s => by rw [fetch_eq, State.setPc_pc], fun _ _ _ hc h => (exec_writes h).pc hc⟩

/-- Settles O51: a register other than the destination is in the frame. -/
theorem onlyTheDestinationRegisterIsWritten : Obligations.OnlyTheDestinationRegisterIsWritten := by
  unfold Obligations.OnlyTheDestinationRegisterIsWritten
  exact fun _ _ _ r hr h => (exec_writes h).reg r hr

/-- Settles O52: a word that no poll reaches is in the frame of an instruction that is no store. -/
theorem onlyStoresAndPollsWriteMemory : Obligations.OnlyStoresAndPollsWriteMemory := by
  unfold Obligations.OnlyStoresAndPollsWriteMemory
  exact fun _ _ _ a hm h1 h2 h => (exec_writes h).mem hm a h1 h2

end Sys2Proof.Machine
end

section
/-! PROOFS. The invariant: canonical memory, a legal COND, a legal reason when halted (10_state.md R27, R33, R34). -/

namespace Sys2Proof.Machine

theorem PlainFrame.inv {s t : State} (h : PlainFrame s t) : s.Inv → t.Inv := by
  rintro ⟨hwf, hcond, hhalt⟩
  exact ⟨h.wf hwf, h.cond hcond, by rw [State.haltLegal, h.running, h.haltReason]; exact hhalt⟩

theorem QuietFrame.inv {s t : State} (h : QuietFrame s t) : s.Inv → t.Inv := by
  rintro ⟨hwf, hcond, hhalt⟩
  exact ⟨h.wf hwf, by rw [State.condLegal, h.cond]; exact hcond,
    by rw [State.haltLegal, h.running, h.haltReason]; exact hhalt⟩

/-- A stop keeps the invariant when its reason is one that R221 allows. -/
theorem State.Inv.raise {s : State} {r : HaltReason} (h : s.Inv) (hr : r.legal) : (s.raise r).Inv := by
  obtain ⟨hwf, hcond, -⟩ := h
  exact ⟨hwf, hcond, fun _ => ⟨r, rfl, hr⟩⟩

theorem RoutineEnd.inv {v : BitVec 8} {s t : State} (h : RoutineEnd v s t) (hs : s.Inv) : t.Inv := by
  cases h with
  | quiet _ h => exact h.inv hs
  | character _ u b h e => exact e ▸ (plain_writeResult trapReg (zext16 b) u).inv (h.inv hs)
  | stopped u r h e hr =>
    subst e
    refine (h.inv hs).raise ?_
    rcases hr with ⟨rfl, -⟩ | ⟨rfl, -⟩ | ⟨rfl, hv⟩
    · trivial
    · trivial
    · exact hv

theorem exec_inv {i : Instr} {s t : State} (hs : s.Inv) (h : exec i s = .next t) : t.Inv := by
  rcases instr_kinds i with ht | hi | ⟨ht, hi⟩
  · obtain ⟨v, u, -, -, -, hend, rfl⟩ := exec_trap_cases ht h
    -- The brackets touch nothing that the invariant reads.
    have hu : u.Inv := hend.inv hs
    exact hu
  · obtain ⟨op, hop, rfl⟩ := exec_illegal_cases hi h
    have hdiag : (s.diagnose Config.illegalDiag).Inv := hs
    exact hdiag.raise (hop.imp And.left And.left)
  · exact (exec_plain ht hi h).inv hs

/-- Settles O48: the fetch keeps the invariant as a plain operation, and every instruction keeps it by its kind. -/
theorem everyStepKeepsInvariant : Obligations.EveryStepKeepsInvariant := by
  unfold Obligations.EveryStepKeepsInvariant
  intro s t hs h
  obtain ⟨-, hexec⟩ := step_cases h
  exact exec_inv ((plain_fetch s).inv hs) hexec

/-- Settles O47: construction lists no word, COND is Zero, and the machine runs. -/
theorem constructionMeetsInvariant : Obligations.ConstructionMeetsInvariant := by
  unfold Obligations.ConstructionMeetsInvariant
  have hconstruct (g c i e k) : (State.construct g c i e k).Inv :=
    ⟨Memory.wf_nil, .inr (.inl rfl), fun h => nomatch h⟩
  exact ⟨hconstruct, hconstruct _ _ _ _ _⟩

end Sys2Proof.Machine
end

section
/-! PROOFS. Which instructions extend the trace and the diagnostics, and that a step takes arrivals from their head
(10_state.md R36; 20_memory.md R68; 60_exceptions.md R231). -/

namespace Sys2Proof.Machine

/-- A trap extends the trace, an illegal opcode the diagnostics, a plain instruction neither. -/
theorem exec_output {i : Instr} {s t : State} (h : exec i s = .next t) :
    s.output <+: t.output ∧ s.diag <+: t.diag ∧ (isTrap i = false → t.output = s.output) ∧
    (isIllegal i = false → t.diag = s.diag) := by
  rcases instr_kinds i with ht | hi | ⟨ht, hi⟩
  · obtain ⟨v, u, -, -, -, hend, rfl⟩ := exec_trap_cases ht h
    obtain ⟨es, hes, -⟩ := hend.frame.output
    have hdiag : (rawRestore u).diag = s.diag := hend.frame.diag
    have hout : (rawRestore u).output = s.output ++ ([.rawEnter] ++ es ++ [.rawRestore]) := by
      rw [rawRestore, State.emit_output, hes, rawEnter, State.emit_output, List.append_assoc, List.append_assoc,
        List.append_assoc]
    refine ⟨?_, ?_, fun hf => ?_, fun _ => hdiag⟩
    · exact hout ▸ List.prefix_append _ _
    · exact hdiag ▸ List.prefix_refl _
    · rw [ht] at hf; cases hf
  · obtain ⟨op, -, rfl⟩ := exec_illegal_cases hi h
    refine ⟨List.prefix_refl _, List.prefix_append _ _, fun _ => rfl, fun hf => ?_⟩
    rw [hi] at hf; cases hf
  · have hplain := exec_plain ht hi h
    exact ⟨hplain.output ▸ List.prefix_refl _, hplain.diag ▸ List.prefix_refl _, fun _ => hplain.output,
      fun _ => hplain.diag⟩

/-- Settles O53: what each kind of instruction appends (`exec_output`). -/
theorem onlyTrapsWriteOutput : Obligations.OnlyTrapsWriteOutput := by
  unfold Obligations.OnlyTrapsWriteOutput
  exact fun _ _ _ h => exec_output h

theorem exec_input {i : Instr} {s t : State} (h : exec i s = .next t) :
    t.input <:+ s.input ∧ t.inputRest = s.inputRest := by
  rcases instr_kinds i with ht | hi | ⟨ht, hi⟩
  · obtain ⟨v, u, -, -, -, hend, rfl⟩ := exec_trap_cases ht h
    exact ⟨hend.frame.input, hend.frame.inputRest⟩
  · obtain ⟨op, -, rfl⟩ := exec_illegal_cases hi h
    exact ⟨List.suffix_refl _, rfl⟩
  · have hplain := exec_plain ht hi h
    exact ⟨hplain.input, hplain.inputRest⟩

/-- Settles O54: the fetch takes a part of the arrivals from their head, and then the instruction does. -/
theorem inputIsConsumedInOrder : Obligations.InputIsConsumedInOrder := by
  unfold Obligations.InputIsConsumedInOrder
  intro s t h
  obtain ⟨-, hexec⟩ := step_cases h
  obtain ⟨hinput, hrest⟩ := exec_input hexec
  have hfetch := plain_fetch s
  exact ⟨hinput.trans hfetch.input, hrest.trans hfetch.inputRest⟩

end Sys2Proof.Machine
end

section
/-! PROOFS. What every trap does, whatever its vector: dispatch, brackets, frame (43_trap.md R180 to R182, R190). -/

namespace Sys2Proof.Machine

/-- The row that a vector selects runs as TRAP of the vector. -/
theorem exec_decodeTrap (v : BitVec 8) (s : State) : exec (decodeTrap v) s = exec (.trap v) s := by
  rcases decodeTrap_cases v with ⟨rfl, hrow⟩ | ⟨rfl, hrow⟩ | ⟨rfl, hrow⟩ | ⟨rfl, hrow⟩ | ⟨rfl, hrow⟩ | ⟨rfl, hrow⟩ |
    ⟨-, hrow⟩ <;> rw [hrow] <;> rfl

/-- Settles O25: the decoder keeps the low byte alone, and the row it selects is TRAP of that byte (`exec_decodeTrap`). -/
theorem trapDispatchesOnItsVector : Obligations.TrapDispatchesOnItsVector := by
  unfold Obligations.TrapDispatchesOnItsVector
  refine ⟨fun ir s hop => ?_, fun s => ⟨rfl, rfl, rfl, rfl, rfl, rfl⟩⟩
  rw [decode_opcode_15 hop, exec_decodeTrap]

/-- Settles O26: what a routine itself appends holds no bracket (`RoutineFrame.output`). -/
theorem everyTrapIsBracketed : Obligations.EveryTrapIsBracketed := by
  unfold Obligations.EveryTrapIsBracketed
  intro i s t hi h
  obtain ⟨v, u, -, -, -, hend, rfl⟩ := exec_trap_cases hi h
  obtain ⟨es, hes, hnoEnter, hnoRestore⟩ := hend.frame.output
  refine ⟨es, ?_, hnoEnter, hnoRestore⟩
  rw [rawRestore, State.emit_output, hes, rawEnter, State.emit_output, List.append_assoc s.output]
  rfl

/-- Settles O27: the brackets touch only the trace, and a routine writes what its vector allows. -/
theorem trapSavesNoState : Obligations.TrapSavesNoState := by
  unfold Obligations.TrapSavesNoState
  intro v s t h
  obtain ⟨u, hend, rfl⟩ := trap_cases h
  have hframe := hend.frame
  refine ⟨hframe.pc, hframe.regs, fun hgetc hin => hend.quiet_result ?_, hframe.mem, hframe.count, hframe.diag⟩
  simp [readsCharacter, hgetc, hin]

end Sys2Proof.Machine
end

section
/-! PROOFS. A step that stops the machine: which instruction, for which reason (60_exceptions.md R221, R222). -/

namespace Sys2Proof.Machine

/-- A well-formed row of the TRAP format is the one its vector selects. -/
theorem eq_decodeTrap_of_wellFormed {i : Instr} {v : BitVec 8} (hwf : i.wellFormed = true)
    (hrow : i = .trap v ∨ i = decodeTrap v) : i = decodeTrap v := by
  rcases hrow with rfl | rfl
  · exact (decodeTrap_of_wellFormed hwf).symm
  · rfl

/-- A reason with the instruction that R221 names for it. -/
def StopFits (i : Instr) (r : Option HaltReason) : Prop :=
  (r = some .haltTrap ∧ i = .halt) ∨ (r = some (.illegalOpcode 8) ∧ i = .rti) ∨
  (r = some (.illegalOpcode 13) ∧ i = .res) ∨
  (∃ v, r = some (.unknownTrap v) ∧ i = .trap v ∧ isRoutineVector v = false) ∨
  (r = some .outputError ∧ (i = .out ∨ i = .puts ∨ i = .inChar ∨ i = .putsp ∨ i = .halt))

/-- The routines that put out anything: all but GETC (R183 to R188). -/
theorem outputs_of_routine {v : BitVec 8} (hv : isRoutineVector v = true) (hgetc : v ≠ Config.trapGetc) :
    decodeTrap v = .out ∨ decodeTrap v = .puts ∨ decodeTrap v = .inChar ∨ decodeTrap v = .putsp ∨
      decodeTrap v = .halt := by
  rcases decodeTrap_cases v with ⟨e, -⟩ | ⟨-, h⟩ | ⟨-, h⟩ | ⟨-, h⟩ | ⟨-, h⟩ | ⟨-, h⟩ | ⟨hn, -⟩
  · exact absurd e hgetc
  · exact .inl h
  · exact .inr (.inl h)
  · exact .inr (.inr (.inl h))
  · exact .inr (.inr (.inr (.inl h)))
  · exact .inr (.inr (.inr (.inr h)))
  · rw [hn] at hv; cases hv

/-- A routine that ends a run has stopped for a reason of its own vector's row. -/
theorem RoutineEnd.stop_fits {v : BitVec 8} {s t : State} (h : RoutineEnd v s t) (hs : s.running = true)
    (ht : t.running = false) : StopFits (decodeTrap v) t.haltReason := by
  cases h with
  | quiet _ hq => rw [hq.running, hs] at ht; cases ht
  | character _ u b hq e => rw [e, writeResult_running, hq.running, hs] at ht; cases ht
  | stopped u r hq e hr =>
    subst e
    rcases hr with ⟨rfl, hv, hgetc⟩ | ⟨rfl, rfl⟩ | ⟨rfl, hv⟩
    · exact .inr (.inr (.inr (.inr ⟨rfl, outputs_of_routine hv hgetc⟩)))
    · exact .inl ⟨rfl, rfl⟩
    · exact .inr (.inr (.inr (.inl ⟨v, rfl, decodeTrap_of_not_routine hv, hv⟩)))

/-- A well-formed instruction that stops a running machine does so for its own reason and leaves PC alone (R221). -/
theorem exec_stop_fits {i : Instr} {s t : State} (hwf : i.wellFormed = true) (h : exec i s = .next t)
    (hs : s.running = true) (ht : t.running = false) : t.pc = s.pc ∧ StopFits i t.haltReason := by
  rcases instr_kinds i with htrap | hi | ⟨htrap, hi⟩
  · obtain ⟨v, u, hrow, -, -, hend, rfl⟩ := exec_trap_cases htrap h
    rw [eq_decodeTrap_of_wellFormed hwf hrow]
    exact ⟨hend.frame.pc, hend.stop_fits hs ht⟩
  · obtain ⟨op, ⟨rfl, rfl⟩ | ⟨rfl, rfl⟩, rfl⟩ := exec_illegal_cases hi h
    · exact ⟨rfl, .inr (.inl ⟨rfl, rfl⟩)⟩
    · exact ⟨rfl, .inr (.inr (.inl ⟨rfl, rfl⟩))⟩
  · rw [(exec_plain htrap hi h).running, hs] at ht
    cases ht

/-- Settles O55: what the decoder gives is well-formed (O3), the fetch leaves the machine running with PC incremented, and
only a stop of a trap or of an illegal opcode ends that (`exec_stop_fits`). -/
theorem stopsOnlyForTheirReasons : Obligations.StopsOnlyForTheirReasons := by
  unfold Obligations.StopsOnlyForTheirReasons
  intro s t h ht
  obtain ⟨hrun, hexec⟩ := step_cases h
  rw [fetch_eq]
  exact exec_stop_fits (encodeOfDecodeClearsUnusedBits _).2 hexec ((plain_fetch s).running.trans hrun) ht

end Sys2Proof.Machine
end

section
/-! PROOFS. The step: fetch, increment, decode, execute (30_encoding.md R91, R92). -/

namespace Sys2Proof.Machine

/-- A step of a running machine, its fetch written as the read at PC and the increment (R91). -/
theorem step_running {s : State} (hrun : s.running = true) :
    step s = exec (decode (memRead s.pc s).1) ((memRead s.pc s).2.setPc (s.pc + 1)) := by
  rw [step, if_pos hrun, fetch_eq]

/-- The same away from KBSR_ADDR, where the read is plain. -/
theorem step_plain {s : State} {i : Instr} (hrun : s.running = true) (hpc : s.pc ≠ Config.kbsrAddr)
    (hdecode : decode (s.mem.read s.pc) = i) : step s = exec i (s.setPc (s.pc + 1)) := by
  rw [step_running hrun, memRead_plain s hpc, hdecode]

/-- Settles O42: the step unfolds to the fetch's read and `exec`; away from KBSR_ADDR the read is plain. -/
theorem stepRunsTheDecodedInstruction : Obligations.StepRunsTheDecodedInstruction := by
  unfold Obligations.StepRunsTheDecodedInstruction
  refine ⟨fun s u ir hrun hread => ?_, fun s i hrun hpc hdecode => step_plain hrun hpc hdecode⟩
  rw [step_running hrun, hread]
  rfl

/-- Settles O43: the step asks first whether the machine runs. -/
theorem haltedMachineHasNoStep : Obligations.HaltedMachineHasNoStep := by
  unfold Obligations.HaltedMachineHasNoStep
  intro s hrun
  have hstep : step s = .fault .halted := by rw [step, hrun, if_neg Bool.false_ne_true]
  exact ⟨hstep, fun t h => by rw [hstep] at h; cases h⟩

end Sys2Proof.Machine
end

section
/-! PROOFS. Sign extension as two's-complement widening (00_scope.md R8). -/

namespace Sys2Proof.Machine

/-- A field is the low bits of its extension. -/
theorem setWidth_sext16 {k : Nat} (v : BitVec k) (hk : k ≤ 16) : (sext16 v).setWidth k = v := by
  rw [sext16_eq_signExtend v hk]
  apply BitVec.eq_of_getLsbD_eq
  intro j hj
  rw [BitVec.getLsbD_setWidth, BitVec.getLsbD_signExtend, decide_eq_true hj, decide_eq_true (hj.trans_le hk),
    if_pos hj, Bool.true_and, Bool.true_and]

theorem sext16_toNat_of_msb {k : Nat} {v : BitVec k} (hk : k ≤ 16) (h : v.msb = false) : (sext16 v).toNat = v.toNat := by
  have hlt : v.toNat < 2 ^ 16 := lt_of_lt_of_le v.isLt (Nat.pow_le_pow_right (by decide) hk)
  rw [sext16, h, if_neg Bool.false_ne_true, BitVec.toNat_setWidth, Nat.mod_eq_of_lt hlt]

/-- Settles O5: up to 16 bits the model's operation is the library's sign extension (`sext16_eq_signExtend`). -/
theorem signExtensionKeepsSignedValue : Obligations.SignExtensionKeepsSignedValue := by
  unfold Obligations.SignExtensionKeepsSignedValue
  refine ⟨fun k v _ hk => ⟨?_, sext16_toNat_of_msb hk, ?_⟩, fun v => ?_⟩
  · rw [sext16_eq_signExtend v hk, BitVec.toInt_signExtend_of_le hk]
  · rw [setWidth_sext16 v hk]
  · rw [sext16_eq_signExtend v (by decide), BitVec.signExtend_eq]

end Sys2Proof.Machine
end

section
/-! PROOFS. What a poll is answered, and what a read at KBSR_ADDR leaves (10_state.md R36; 20_memory.md R52, R53, R68). -/

namespace Sys2Proof.Machine

/-- Zero extension keeps the number (R9). -/
theorem zext16_toNat (b : Byte) : (zext16 b).toNat = b.toNat := BitVec.toNat_setWidth_of_le (by decide)

/-- A poll changes the arrivals as its request does, and memory; nothing else. -/
theorem poll_frame (s : State) : poll s = { s with mem := (poll s).mem, input := (inPoll s).2.input } := by
  obtain ⟨rest, -, e⟩ := inPoll_state s
  rcases poll_cases s with ⟨_, -, h⟩ | ⟨-, h⟩ <;> rw [h, e] <;> rfl

/-- Settles O7: the answers are the cases of `inPoll`, and each word after the poll is `poll_read`. -/
theorem memReadPollsExactlyAtStatus : Obligations.MemReadPollsExactlyAtStatus := by
  unfold Obligations.MemReadPollsExactlyAtStatus
  have hne : Config.kbdrAddr ≠ Config.kbsrAddr := by decide
  refine ⟨⟨fun s b rest h => by rw [inPoll, h]; rfl, fun s rest h => by rw [inPoll, h]; rfl,
    fun s h => by rw [inPoll, h]⟩, fun a s h => memRead_plain s h, fun s t w h => ?_⟩
  rw [memRead_status] at h
  cases h
  refine ⟨poll_frame s, rfl, fun a h1 h2 => ?_, fun b hb => ⟨?_, ?_⟩, fun hb => ⟨?_, ?_⟩⟩
  · rw [poll_read, if_neg h1, if_neg h2]
  · rw [poll_read, if_pos rfl, hb]; rfl
  · rw [poll_read, if_neg hne, if_pos rfl, hb]
    exact zext16_toNat b
  · rw [poll_read, if_pos rfl, hb]; rfl
  · rw [poll_read, if_neg hne, if_pos rfl, hb]; rfl

end Sys2Proof.Machine
end

section
/-! PROOFS. BR tests COND, and JSRR reads its base after the link (41_control.md R130, R134). -/

namespace Sys2Proof.Machine

/-! ### The BR test bit by bit -/

/-- A one-bit flag pattern meets COND exactly where COND has that bit. -/
theorem flag_and_eq_zero (b : Bool) {j : Nat} (hj : j < 16) (c : Word) :
    (if b then BitVec.twoPow 16 j else 0) &&& c = 0 ↔ (b && c.getLsbD j) = false := by
  have hne : BitVec.twoPow 16 j ≠ 0 := fun e => by
    have hbit := congrArg (BitVec.getLsbD · j) e
    simp [-BitVec.getLsbD_eq_getElem, BitVec.getLsbD_twoPow, hj] at hbit
  cases b with
  | false => rw [if_neg Bool.false_ne_true, Bool.false_and]; exact iff_of_true BitVec.zero_and rfl
  | true =>
    rw [if_pos rfl, Bool.true_and, BitVec.twoPow_and]
    split
    · next h => rw [h]; exact iff_of_false hne (by decide)
    · next h => exact iff_of_true rfl (Bool.eq_false_of_not_eq_true h)

/-- The asserted bits of n, z, p meet COND exactly where one of them meets its bit of COND (R130). -/
theorem branchTaken_eq (n z p : Bool) (s : State) :
    branchTaken n z p s = ((n && s.cond.getLsbD 2) || (z && s.cond.getLsbD 1) || (p && s.cond.getLsbD 0)) := by
  have hmask : nzpMask n z p = (if n then BitVec.twoPow 16 2 else 0) ||| (if z then BitVec.twoPow 16 1 else 0) |||
    (if p then BitVec.twoPow 16 0 else 0) := rfl
  have hzero : nzpMask n z p &&& s.cond = 0 ↔
      ((n && s.cond.getLsbD 2) || (z && s.cond.getLsbD 1) || (p && s.cond.getLsbD 0)) = false := by
    rw [hmask, BitVec.and_or_distrib_right, BitVec.and_or_distrib_right, Bool.or_eq_false_iff, Bool.or_eq_false_iff,
      ← flag_and_eq_zero n (by decide), ← flag_and_eq_zero z (by decide), ← flag_and_eq_zero p (by decide)]
    exact BitVec.or_eq_zero_iff.trans (and_congr_left fun _ => BitVec.or_eq_zero_iff)
  rw [branchTaken, Bool.eq_iff_iff, bne_iff_ne, Ne, hzero, Bool.not_eq_false]

theorem exec_br (n z p : Bool) (off : BitVec 9) (s : State) : exec (.br n z p off) s =
    .next (s.setPc (if branchTaken n z p s then relAddr s.pc off.toInt else s.pc)) := by
  rw [← pcRelAddr_eq]
  change Host.Outcome.next (if branchTaken n z p s then s.setPc (pcRelAddr s off) else s) = _
  split <;> rfl

/-- With a legal COND each asserted bit names its pattern. -/
theorem branchTaken_iff_of_legal {s : State} (h : s.condLegal) (n z p : Bool) : branchTaken n z p s = true ↔
    (n = true ∧ s.cond = Config.condNegative) ∨ (z = true ∧ s.cond = Config.condZero) ∨
      (p = true ∧ s.cond = Config.condPositive) := by
  rw [branchTaken_eq]
  rcases h with e | e | e <;> rw [e] <;> revert n z p <;> decide

/-- Settles O14: the test is `branchTaken`, read bit by bit and, with a legal COND, pattern by pattern. -/
theorem branchTestsCond : Obligations.BranchTestsCond := by
  unfold Obligations.BranchTestsCond
  refine ⟨fun ir hop => decode_opcode_0 hop, fun n z p off s => ?_, fun n z p off s h => ?_⟩
  · rw [exec_br, branchTaken_eq]
    rfl
  · rw [exec_br]
    simp only [branchTaken_iff_of_legal h]
    rfl

/-! ### JSRR -/

theorem exec_jsrr (baseR : Reg) (s : State) : exec (.jsrr baseR) s = .next ((link s).setPc ((link s).reg baseR)) := rfl

/-- Settles O17: the base is read in the state that the link left, where R7 is the incremented PC. -/
theorem jsrrLinksBeforeReadingBase : Obligations.JsrrLinksBeforeReadingBase := by
  unfold Obligations.JsrrLinksBeforeReadingBase
  refine ⟨fun ir hop hmode => ?_, fun baseR s => ⟨_, exec_jsrr baseR s, ?_, ?_, fun r hr => ?_, rfl⟩⟩
  · rw [decode_opcode_4 hop, hmode, if_neg Bool.false_ne_true]
  · rw [State.setPc_reg]
    exact link_reg_same s
  · exact State.setReg_reg s linkReg baseR s.pc
  · rw [State.setPc_reg, link_reg_other s hr]

end Sys2Proof.Machine
end

section
/-! PROOFS. STI: the pointer read, then one word stored (42_load_store.md R155). -/

namespace Sys2Proof.Machine

theorem exec_sti (sr : Reg) (off : BitVec 9) {s u : State} {ea : Word}
    (hptr : memRead (relAddr s.pc off.toInt) s = (ea, u)) : exec (.sti sr off) s = .next (storeTo sr ea u) := by
  have hind : indirectAddr s off = (ea, u) := by rw [indirectAddr, pcRelAddr_eq, hptr]
  change Host.Outcome.next (storeTo sr (indirectAddr s off).1 (indirectAddr s off).2) = _
  rw [hind]

/-- The frame of a store after a read, as a frame from before the read. -/
theorem store_frame_trans {s u t : State} {m m' : Memory} {i : List Arrival} (hu : u = { s with mem := m, input := i })
    (ht : t = { u with mem := m' }) : t = { s with mem := t.mem, input := t.input } := by
  subst hu ht
  rfl

/-- Settles O23: the store starts from the state that the pointer read left. -/
theorem stiStoresIndirect : Obligations.StiStoresIndirect := by
  unfold Obligations.StiStoresIndirect
  refine ⟨fun ir hop => decode_opcode_11 hop, fun sr off s u ea hptr => ⟨_, exec_sti sr off hptr, ?_⟩⟩
  generalize ht : storeTo sr ea u = t
  obtain ⟨hword, hothers, hframe⟩ := storeTo_effect ht.symm
  have hu : u = (memRead (relAddr s.pc off.toInt) s).2 := by rw [hptr]
  refine ⟨?_, hothers, hframe, store_frame_trans (hu.trans (memRead_frame _ s)) hframe, fun a hea h1 h2 => ?_,
    fun hstat => ?_⟩
  · rw [hword, hu, memRead_reg]
  · rw [hothers a hea, hu, memRead_other _ a s h1 h2]
  · rw [memRead_plain s hstat] at hptr
    cases hptr
    exact ⟨rfl, by rw [hframe], hothers⟩

end Sys2Proof.Machine
end

section
/-! PROOFS. A store and a flag are seen by the next instruction (20_memory.md R65; 70_reset_and_hazards.md R258). -/

namespace Sys2Proof.Machine

/-- Settles O44: ST changes memory alone, so the second fetch is at PC + 1 and reads the word just stored there. -/
theorem storeIsSeenByTheNextFetch : Obligations.StoreIsSeenByTheNextFetch := by
  unfold Obligations.StoreIsSeenByTheNextFetch
  intro s sr off hrun hpc hdecode haddr hnext
  have hstep : step s = .next (storeTo sr (s.pc + 1) (s.setPc (s.pc + 1))) := by
    rw [step_plain hrun hpc hdecode, exec_st, State.setPc_pc, haddr]
  refine ⟨_, hstep, ?_⟩
  generalize ht : storeTo sr (s.pc + 1) (s.setPc (s.pc + 1)) = t
  obtain ⟨hword, -, hframe⟩ := storeTo_effect ht.symm
  have htpc : t.pc = s.pc + 1 := by rw [hframe]; rfl
  have htrun : t.running = true := by rw [hframe]; exact hrun
  rw [step_plain htrun (htpc ▸ hnext) rfl, htpc, hword, BitVec.add_assoc]
  rfl

/-- COND by a value's sign, pattern by pattern (R28). -/
theorem condOf_iff (v : Word) : (condOf v = Config.condNegative ↔ v.toInt < 0) ∧
    (condOf v = Config.condZero ↔ v.toInt = 0) ∧ (condOf v = Config.condPositive ↔ 0 < v.toInt) := by
  have hnz : Config.condNegative ≠ Config.condZero := by decide
  have hnp : Config.condNegative ≠ Config.condPositive := by decide
  have hzp : Config.condZero ≠ Config.condPositive := by decide
  rcases condTells_condOf v with ⟨hv, hc⟩ | ⟨hv, hc⟩ | ⟨hv, hc⟩ <;>
    simp [hc, hnz, hnz.symm, hnp, hnp.symm, hzp, hzp.symm] <;> omega

/-- Settles O45: ADD leaves memory alone and COND at the sign of its sum, which is what BR then tests. -/
theorem flagIsVisibleToTheNextBranch : Obligations.FlagIsVisibleToTheNextBranch := by
  unfold Obligations.FlagIsVisibleToTheNextBranch
  intro s dr sr1 sr2 n z p off hrun hpc hnext hadd hbr
  have hfirst : step s = .next (writeResult dr (s.reg sr1 + s.reg sr2) (s.setPc (s.pc + 1))) := by
    rw [step_plain hrun hpc hadd, exec_addReg, State.setPc_reg, State.setPc_reg]
  generalize htdef : writeResult dr (s.reg sr1 + s.reg sr2) (s.setPc (s.pc + 1)) = t at hfirst
  have htpc : t.pc = s.pc + 1 := by rw [← htdef]; rfl
  have htrun : t.running = true := by rw [← htdef]; exact hrun
  have htdecode : decode (t.mem.read t.pc) = .br n z p off := by rw [htpc, ← htdef]; exact hbr
  have htcond : t.cond = condOf (s.reg sr1 + s.reg sr2) := by rw [← htdef]; rfl
  have hlegal : (t.setPc (s.pc + 2)).condLegal := by
    rw [State.condLegal, State.setPc_cond, htcond]; exact condOf_legal _
  have hsecond : step t = exec (.br n z p off) (t.setPc (s.pc + 2)) := by
    rw [step_plain htrun (htpc ▸ hnext) htdecode, htpc, BitVec.add_assoc]
    rfl
  rw [exec_br] at hsecond
  refine ⟨t, _, hfirst, hsecond, ?_⟩
  obtain ⟨hneg, hzero, hpos⟩ := condOf_iff (s.reg sr1 + s.reg sr2)
  simp only [State.setPc_pc, branchTaken_iff_of_legal hlegal, State.setPc_cond, htcond, hneg, hzero, hpos]

end Sys2Proof.Machine
end

section
/-! PROOFS. What a read depends on: memory and the input source alone (20_memory.md R52, R53). -/

namespace Sys2Proof.Machine

/-- Machines with one memory and one input source are answered alike by a poll request. -/
theorem inPoll_congr {s t : State} (hi : t.input = s.input) (hr : t.inputRest = s.inputRest) :
    inPoll t = ((inPoll s).1, t.setInput (inPoll s).2.input) := by
  rcases inPoll_cases s with ⟨b, rest, h, e⟩ | ⟨rest, h, e⟩ | ⟨h, e⟩ <;> rw [e]
  · rw [inPoll, hi, h]
    rfl
  · rw [inPoll, hi, h]
    rfl
  · have ht : t.setInput s.input = t := by rw [← hi]; rfl
    rw [h] at ht
    simp only [inPoll, hi, h, hr, ht]

theorem poll_congr {s t : State} (hm : t.mem = s.mem) (hi : t.input = s.input) (hr : t.inputRest = s.inputRest) :
    poll t = (t.setInput (poll s).input).setMem (poll s).mem := by
  have hinput : (poll s).input = (inPoll s).2.input := by rw [poll_frame]
  have ht := inPoll_congr hi hr
  rw [hinput]
  rcases poll_cases s with ⟨b, hb, e⟩ | ⟨hb, e⟩ <;> rw [poll, ht, hb, e] <;>
    simp only [State.setInput_mem, hm] <;> rfl

/-- A read gives machines with one memory and one input source the same word, and leaves the rest of each as it was. -/
theorem memRead_congr {s t : State} (hm : t.mem = s.mem) (hi : t.input = s.input) (hr : t.inputRest = s.inputRest)
    (a : Word) : memRead a t = ((memRead a s).1, (t.setInput (memRead a s).2.input).setMem (memRead a s).2.mem) := by
  by_cases ha : a = Config.kbsrAddr
  · subst ha
    rw [memRead_status, memRead_status, poll_congr hm hi hr]
    rfl
  · rw [memRead_plain t ha, memRead_plain s ha, ← hm, ← hi]
    rfl

end Sys2Proof.Machine
end

section
/-! PROOFS. COUNT is unobservable: every operation commutes with a change of COUNT (10_state.md R31). -/

namespace Sys2Proof.Machine

/-- The machine with another value in the COUNT slot. -/
def State.setCount (s : State) (c : Word) : State := { s with count := c }

/-- An outcome with the next state, where there is one, changed by a function. -/
def mapNext (f : State → State) : Host.Outcome State Fault Refusal → Host.Outcome State Fault Refusal
  | .next s => .next (f s)
  | .fault r => .fault r
  | .refused r => .refused r

/-- An operation that neither reads nor writes COUNT. -/
def CountBlind (f : State → Host.Outcome State Fault Refusal) : Prop :=
  ∀ s c, f (s.setCount c) = mapNext (·.setCount c) (f s)

/-! ### The shared operations -/

theorem memRead_setCount (a : Word) (s : State) (c : Word) :
    memRead a (s.setCount c) = ((memRead a s).1, (memRead a s).2.setCount c) := by
  rw [memRead_congr (s := s) (t := s.setCount c) rfl rfl rfl, Prod.mk.injEq]
  refine ⟨rfl, ?_⟩
  obtain ⟨_, _, -, e, -⟩ := memRead_state a s
  rw [e]
  rfl

theorem loadFrom_setCount (r : Reg) (a : Word) (s : State) (c : Word) :
    loadFrom r a (s.setCount c) = (loadFrom r a s).setCount c := by
  rw [loadFrom_eq, loadFrom_eq, memRead_setCount]
  rfl

theorem outBytes_setCount (bs : List Byte) (s : State) (c : Word) :
    outBytes bs (s.setCount c) = ((outBytes bs s).1.setCount c, (outBytes bs s).2) := by
  have hk : (s.setCount c).sinkLimit = s.sinkLimit := rfl
  unfold outBytes
  rw [hk]
  split <;> rfl

theorem outFlush_setCount (s : State) (c : Word) :
    outFlush (s.setCount c) = ((outFlush s).1.setCount c, (outFlush s).2) := by
  have hk : (s.setCount c).sinkLimit = s.sinkLimit := rfl
  unfold outFlush
  rw [hk]
  split <;> rfl

theorem inRead_setCount (s : State) (c : Word) :
    inRead (s.setCount c) = (inRead s).map fun r => (r.1, r.2.setCount c) := by
  have hi : (s.setCount c).input = s.input := rfl
  have hr : (s.setCount c).inputRest = s.inputRest := rfl
  unfold inRead
  rw [hi, hr]
  split
  · rfl
  · rw [Option.map_map]
    rfl

/-! ### The parts of a routine -/

theorem countBlind_next {f : State → State} (h : ∀ s c, f (s.setCount c) = (f s).setCount c) :
    CountBlind fun s => .next (f s) := fun s c => congrArg Host.Outcome.next (h s c)

theorem countBlind_afterOutput {out : State → State × Bool} {rest : State → Host.Outcome State Fault Refusal}
    (hout : ∀ s c, out (s.setCount c) = ((out s).1.setCount c, (out s).2)) (hrest : CountBlind rest) :
    CountBlind fun s => afterOutput (out s) rest := by
  intro s c
  simp only [afterOutput, hout]
  split
  · exact hrest _ c
  · rfl

theorem countBlind_afterInput {rest : Byte → State → Host.Outcome State Fault Refusal}
    (hrest : ∀ b, CountBlind (rest b)) : CountBlind fun s => afterInput s rest := by
  intro s c
  simp only [afterInput, inRead_setCount]
  cases inRead s with
  | none => rfl
  | some r => exact hrest r.1 r.2 c

theorem countBlind_withRawMode {f : State → Host.Outcome State Fault Refusal} (h : CountBlind f) :
    CountBlind (withRawMode f) := by
  intro s c
  have henter : f (rawEnter (s.setCount c)) = mapNext (·.setCount c) (f (rawEnter s)) := h (rawEnter s) c
  rw [withRawMode, withRawMode, henter]
  cases f (rawEnter s) <;> rfl

theorem countBlind_putsLoop (n : Nat) (a : Word) : CountBlind (putsLoop n a) := by
  induction n generalizing a with
  | zero => exact fun _ _ => rfl
  | succ n ih =>
    intro s c
    simp only [putsLoop, memRead_setCount]
    split
    · rfl
    · exact countBlind_afterOutput (outBytes_setCount _) (ih (a + 1)) _ c

theorem countBlind_putspLoop (n : Nat) (a : Word) : CountBlind (putspLoop n a) := by
  induction n generalizing a with
  | zero => exact fun _ _ => rfl
  | succ n ih =>
    intro s c
    simp only [putspLoop, memRead_setCount]
    split
    · rfl
    · refine countBlind_afterOutput (outBytes_setCount _) (fun t c => ?_) _ c
      split
      · rfl
      · exact countBlind_afterOutput (outBytes_setCount _) (ih (a + 1)) t c

/-! ### The routines, the instructions, the step -/

theorem countBlind_trapRoutine (v : BitVec 8) : CountBlind (trapRoutine v) := by
  intro s c
  unfold trapRoutine
  split
  · exact countBlind_afterInput (fun b => countBlind_next fun _ _ => rfl) s c
  split
  · exact countBlind_afterOutput (out := fun s => outByte (lowByte (s.reg trapReg)) s)
      (fun s c => outBytes_setCount [lowByte (s.reg trapReg)] s c) (countBlind_next fun _ _ => rfl) s c
  split
  · exact countBlind_putsLoop _ _ s c
  split
  · exact countBlind_afterOutput (outBytes_setCount _) (countBlind_afterInput fun b =>
      countBlind_afterOutput (outBytes_setCount _) (countBlind_next fun _ _ => rfl)) s c
  split
  · exact countBlind_putspLoop _ _ s c
  split
  · exact countBlind_afterOutput (outBytes_setCount _) (countBlind_afterOutput outFlush_setCount
      (countBlind_next fun _ _ => rfl)) s c
  · rfl

theorem countBlind_exec (i : Instr) : CountBlind (exec i) := by
  intro s c
  cases i with
  | addReg | addImm | andReg | andImm | not | jmp | ret | jsr | jsrr | lea | st | str | rti | res => rfl
  | br n z p off =>
    rw [exec_br, exec_br]
    rfl
  | ld r off => exact congrArg Host.Outcome.next (loadFrom_setCount r _ s c)
  | ldr r b off => exact congrArg Host.Outcome.next (loadFrom_setCount r _ s c)
  | ldi r off =>
    have hptr : memRead (relAddr (s.setCount c).pc off.toInt) (s.setCount c) = _ := memRead_setCount _ s c
    rw [exec_ldi r off hptr, exec_ldi r off rfl, loadFrom_setCount]
    rfl
  | sti r off =>
    have hptr : memRead (relAddr (s.setCount c).pc off.toInt) (s.setCount c) = _ := memRead_setCount _ s c
    rw [exec_sti r off hptr, exec_sti r off rfl]
    rfl
  | trap | getc | out | puts | inChar | putsp | halt => exact countBlind_withRawMode (countBlind_trapRoutine _) s c

theorem countBlind_step : CountBlind step := by
  intro s c
  have hrun : (s.setCount c).running = s.running := rfl
  have hfetch : fetch (s.setCount c) = ((fetch s).1, (fetch s).2.setCount c) := by
    rw [fetch_eq, fetch_eq, show (s.setCount c).pc = s.pc from rfl, memRead_setCount]
    rfl
  rw [step, step, hrun, hfetch]
  split
  · exact countBlind_exec _ _ c
  · rfl

/-- Settles O56: the step commutes with a change of COUNT; with COUNT set to what it is, that says that it is kept. -/
theorem countIsUnobservable : Obligations.CountIsUnobservable := by
  unfold Obligations.CountIsUnobservable
  refine ⟨fun s c t h => ⟨?_, ?_⟩, fun s c f h => ?_⟩
  · exact (countBlind_step s c).trans (by rw [h]; rfl)
  · have hsame : step s = mapNext (·.setCount s.count) (step s) := countBlind_step s s.count
    rw [h] at hsame
    have ht : t = t.setCount s.count := Host.Outcome.next.inj hsame
    rw [ht]
    rfl
  · exact (countBlind_step s c).trans (by rw [h]; rfl)

end Sys2Proof.Machine
end

section
/-! PROOFS. The calls of a routine one by one, and the routines that read or write single characters
(43_trap.md R181 to R189; 60_exceptions.md R242, R243). -/

namespace Sys2Proof.Machine

/-! ### Each routine's row (R182) -/

theorem exec_getc (s : State) : exec .getc s = withRawMode getcRoutine s := congrArg (withRawMode · s) trapRoutine_getc
theorem exec_out (s : State) : exec .out s = withRawMode outRoutine s := congrArg (withRawMode · s) trapRoutine_out
theorem exec_puts (s : State) : exec .puts s = withRawMode putsRoutine s := congrArg (withRawMode · s) trapRoutine_puts
theorem exec_inChar (s : State) : exec .inChar s = withRawMode inRoutine s := congrArg (withRawMode · s) trapRoutine_in
theorem exec_putsp (s : State) : exec .putsp s = withRawMode putspRoutine s := congrArg (withRawMode · s) trapRoutine_putsp
theorem exec_halt (s : State) : exec .halt s = withRawMode haltRoutine s := congrArg (withRawMode · s) trapRoutine_halt
theorem exec_trap_unknown {v : BitVec 8} (hv : isRoutineVector v = false) (s : State) :
    exec (.trap v) s = withRawMode (unknownRoutine v) s := congrArg (withRawMode · s) (trapRoutine_unknown hv)

/-! ### The brackets -/

/-- A routine's run between the brackets, from what it appends itself (R181). -/
theorem withRawMode_bracket {f : State → Host.Outcome State Fault Refusal} {s u : State} {es : List OutEvent}
    (h : f (rawEnter s) = .next u) (hout : u.output = (rawEnter s).output ++ es) :
    withRawMode f s = .next { u with output := s.output ++ .rawEnter :: es ++ [.rawRestore] } := by
  have hbracket : u.output ++ [.rawRestore] = s.output ++ .rawEnter :: es ++ [.rawRestore] := by
    rw [hout, rawEnter, State.emit_output, List.append_assoc s.output]
    rfl
  rw [withRawMode_next h, rawRestore, State.emit, hbracket]

/-- The bracketed trace with an end of what the routine appends taken apart. -/
theorem bracket_append (out es fs gs : List OutEvent) :
    out ++ .rawEnter :: (es ++ fs) ++ gs = out ++ .rawEnter :: es ++ (fs ++ gs) := by simp

/-! ### Output calls -/

/-- The machine after the sink has taken events, one call each. -/
def State.took (s : State) (es : List OutEvent) : State := (s.emit es).setSinkLimit (s.sinkAfter es.length)

theorem sinkAfter_all {s : State} {k : Nat} (hk : s.sinkLimit = some k) : s.sinkAfter k = some 0 := by
  rw [State.sinkAfter, hk, Option.map_some, Nat.sub_self]

theorem sinkTakes_of_limit {s : State} {n k : Nat} (hk : s.sinkLimit = some k) (hnk : n ≤ k) : s.sinkTakes n := by
  intro j hj
  obtain rfl : k = j := Option.some.inj (hk.symm.trans hj)
  exact hnk

theorem sinkAfter_took (s : State) (es : List OutEvent) (n : Nat) :
    (s.took es).sinkAfter n = s.sinkAfter (es.length + n) := by
  simp only [State.took, State.sinkAfter, State.setSinkLimit_sinkLimit, Option.map_map, Function.comp_def, Nat.sub_sub]

theorem took_took (s : State) (es fs : List OutEvent) : (s.took es).took fs = s.took (es ++ fs) := by
  have hemit : (s.emit es).emit fs = s.emit (es ++ fs) :=
    congrArg (fun o => { s with output := o }) (List.append_assoc ..)
  have hsink : (s.took es).took fs = ((s.emit es).emit fs).setSinkLimit (s.sinkAfter (es.length + fs.length)) :=
    congrArg ((s.emit es).emit fs).setSinkLimit (sinkAfter_took s es fs.length)
  rw [hsink, hemit, ← List.length_append]
  rfl

theorem sinkTakes_took {s : State} {es : List OutEvent} {n : Nat} (h : s.sinkTakes (es.length + n)) :
    (s.took es).sinkTakes n := by
  intro k hk
  obtain ⟨j, hj, rfl⟩ := Option.map_eq_some_iff.mp hk
  have := h j hj
  omega

section
variable {bs : List Byte} {s : State} {rest : State → Host.Outcome State Fault Refusal}

theorem afterOutput_ok (h : s.sinkTakes bs.length) : afterOutput (outBytes bs s) rest = rest (s.took (bs.map .byte)) := by
  rw [outBytes_ok h, State.took, List.length_map]
  rfl

/-- At a failure the sink has taken what it could take (R242). -/
theorem afterOutput_fail {k : Nat} (hk : s.sinkLimit = some k) (h : k < bs.length) :
    afterOutput (outBytes bs s) rest = .next ((s.took ((bs.take k).map .byte)).raise .outputError) := by
  rw [outBytes_fail hk h, State.took, List.length_map, List.length_take_of_le h.le, sinkAfter_all hk]
  rfl

/-- One byte more, after events that the sink has taken. -/
theorem afterOutput_byte_ok {b : Byte} {es : List OutEvent} (h : s.sinkTakes (es.length + 1)) :
    afterOutput (outByte b (s.took es)) rest = rest (s.took (es ++ [.byte b])) := by
  rw [outByte, afterOutput_ok (sinkTakes_took h), took_took]
  rfl

/-- One byte more, where the sink has taken all it takes. -/
theorem afterOutput_byte_fail {b : Byte} {es : List OutEvent} (hk : s.sinkLimit = some es.length) :
    afterOutput (outByte b (s.took es)) rest = .next ((s.took es).raise .outputError) := by
  have hempty : (s.took es).sinkLimit = some 0 := sinkAfter_all hk
  rw [outByte, afterOutput_fail (bs := [b]) hempty Nat.one_pos, List.take_zero, List.map_nil, took_took, List.append_nil]

theorem afterOutput_flush_ok (h : s.sinkTakes 1) : afterOutput (outFlush s) rest = rest (s.took [.flush]) := by
  rcases outFlush_cases s with ⟨hk, -⟩ | ⟨-, e⟩
  · exact absurd (h 0 hk) (by decide)
  · rw [e]
    rfl

theorem afterOutput_flush_fail (hk : s.sinkLimit = some 0) :
    afterOutput (outFlush s) rest = .next (s.raise .outputError) := by
  rcases outFlush_cases s with ⟨-, e⟩ | ⟨h, -⟩
  · rw [e]
    rfl
  · exact absurd (h 0 hk) (by decide)

end

/-- A routine that took events from a machine with the trace and the sink of `s`, between the brackets. -/
theorem withRawMode_took {f : State → Host.Outcome State Fault Refusal} {s t : State} {es : List OutEvent}
    (hout : t.output = s.output) (hsink : t.sinkLimit = s.sinkLimit) (h : f (rawEnter s) = .next ((rawEnter t).took es)) :
    withRawMode f s = .next { t with
      output := s.output ++ .rawEnter :: es ++ [.rawRestore], sinkLimit := s.sinkAfter es.length } := by
  have htrace : ((rawEnter t).took es).output = (rawEnter s).output ++ es :=
    congrArg (fun o => o ++ [OutEvent.rawEnter] ++ es) hout
  rw [withRawMode_bracket h htrace, State.sinkAfter, ← hsink]
  rfl

/-- The same for a routine that the failing sink stopped. -/
theorem withRawMode_outputError {f : State → Host.Outcome State Fault Refusal} {s t : State} {es : List OutEvent}
    (hout : t.output = s.output) (hk : t.sinkLimit = some es.length)
    (h : f (rawEnter s) = .next (((rawEnter t).took es).raise .outputError)) :
    withRawMode f s = .next { t with
      running := false, haltReason := some .outputError, sinkLimit := some 0,
      output := s.output ++ .rawEnter :: es ++ [.rawRestore] } := by
  have htrace : (((rawEnter t).took es).raise .outputError).output = (rawEnter s).output ++ es :=
    congrArg (fun o => o ++ [OutEvent.rawEnter] ++ es) hout
  rw [withRawMode_bracket h htrace, ← sinkAfter_all hk]
  rfl

/-! ### The blocking read -/

/-- The next byte that a blocking read gets, and the arrivals left after it. -/
def Arrives (s : State) (b : Byte) (rest : List Arrival) : Prop :=
  ∃ n, s.input = List.replicate n .notYet ++ .byte b :: rest ∨
    (s.input = List.replicate n .notYet ∧ s.inputRest = some b ∧ rest = [])

theorem inRead_of_arrives {s : State} {b : Byte} {rest : List Arrival} (h : Arrives s b rest) :
    inRead s = some (b, s.setInput rest) := by
  obtain ⟨n, h | ⟨h, hb, rfl⟩⟩ := h
  · rw [inRead, h, nextByte_replicate_byte]
  · rw [inRead, h, nextByte_replicate, hb]
    rfl

theorem afterInput_of_arrives {s : State} {b : Byte} {left : List Arrival}
    {rest : Byte → State → Host.Outcome State Fault Refusal} (h : Arrives s b left) :
    afterInput s rest = rest b (s.setInput left) := by
  rw [afterInput, inRead_of_arrives h]

theorem afterInput_never {s : State} {n : Nat} {rest : Byte → State → Host.Outcome State Fault Refusal}
    (h : s.input = List.replicate n .notYet) (hb : s.inputRest = none) : afterInput s rest = .fault .noInput := by
  rw [afterInput, inRead, h, nextByte_replicate, hb]
  rfl

/-- A zero-extended byte is Zero or Positive, never Negative (R183; 92 D10). -/
theorem condOf_zext16 (b : Byte) : condOf (zext16 b) = if b = 0 then Config.condZero else Config.condPositive := by
  have hzero : zext16 b = 0 ↔ b = 0 := by
    rw [← BitVec.toNat_inj, ← BitVec.toNat_inj, zext16_toNat]
    rfl
  have hmsb : (zext16 b).msb = false := by
    rw [BitVec.msb_eq_false_iff_two_mul_lt, zext16_toNat]
    omega
  simp only [condOf, hzero, hmsb, Bool.false_eq_true, if_false]

/-- What GETC and IN leave in R0 and COND. -/
theorem character_result (b : Byte) (u : State) : ((writeResult trapReg (zext16 b) u).reg 0).toNat = b.toNat ∧
    (writeResult trapReg (zext16 b) u).cond = (if b = 0 then Config.condZero else Config.condPositive) ∧
    ∀ r, r ≠ 0 → (writeResult trapReg (zext16 b) u).reg r = u.reg r :=
  ⟨(congrArg BitVec.toNat (writeResult_reg_same trapReg _ u)).trans (zext16_toNat b),
    condOf_zext16 b, fun r hr => (writeResult_flags_frame trapReg _ u).2.1 r hr⟩

/-! ### The statements -/

/-- Settles O28: between the brackets GETC is one blocking read and `writeResult`. -/
theorem getcReadsACharacter : Obligations.GetcReadsACharacter := by
  unfold Obligations.GetcReadsACharacter
  intro s n b rest h
  have hrun : getcRoutine (rawEnter s) = .next (writeResult trapReg (zext16 b) ((rawEnter s).setInput rest)) :=
    afterInput_of_arrives (s := rawEnter s) ⟨n, h⟩
  obtain ⟨hreg, hcond, hothers⟩ := character_result b ((rawEnter s).setInput rest)
  refine ⟨_, (exec_getc s).trans (withRawMode_bracket hrun (List.append_nil _).symm), hreg, hcond, hothers, ?_⟩
  rw [List.append_assoc]
  rfl

/-- Settles O29: one output call that the sink takes. -/
theorem outWritesTheLowByte : Obligations.OutWritesTheLowByte := by
  unfold Obligations.OutWritesTheLowByte
  intro s h
  have hrun : outRoutine (rawEnter s) = .next ((rawEnter s).took [.byte (lowByte (s.reg 0))]) :=
    afterOutput_ok (bs := [lowByte (s.reg 0)]) (s := rawEnter s) h
  rw [exec_out, withRawMode_took rfl rfl hrun, List.append_assoc]
  rfl

/-- Settles O31: the prompt, the blocking read and the echo, each of which succeeds, and then the end of GETC. -/
theorem inPromptsReadsAndEchoes : Obligations.InPromptsReadsAndEchoes := by
  unfold Obligations.InPromptsReadsAndEchoes
  intro s n b rest hsink h
  have hprompt : (rawEnter s).sinkTakes Config.inPrompt.length := fun k hk => Nat.le_of_succ_le (hsink k hk)
  have hecho : ((rawEnter s).setInput rest).sinkTakes ((Config.inPrompt.map OutEvent.byte).length + 1) := by
    rw [List.length_map]
    exact hsink
  have harrives : Arrives ((rawEnter s).took (Config.inPrompt.map .byte)) b rest := ⟨n, h⟩
  have hrun : inRoutine (rawEnter s) = .next (writeResult trapReg (zext16 b)
      (((rawEnter s).setInput rest).took (Config.inPrompt.map .byte ++ [.byte b]))) := by
    rw [inRoutine, afterOutput_ok hprompt, afterInput_of_arrives harrives]
    exact afterOutput_byte_ok hecho
  obtain ⟨hreg, hcond, hothers⟩ := character_result b
    (((rawEnter s).setInput rest).took (Config.inPrompt.map .byte ++ [.byte b]))
  refine ⟨_, (exec_inChar s).trans (withRawMode_bracket hrun rfl), hreg, hcond, hothers, ?_⟩
  rw [State.took, List.length_append, List.length_map, bracket_append]
  rfl

/-- Settles O33: the notice and the flush succeed, and then the stop. -/
theorem haltStopsNormally : Obligations.HaltStopsNormally := by
  unfold Obligations.HaltStopsNormally
  intro s hsink
  have hnotice : (rawEnter s).sinkTakes Config.haltNotice.length := fun k hk => Nat.le_of_succ_le (hsink k hk)
  have hflush : ((rawEnter s).took (Config.haltNotice.map .byte)).sinkTakes 1 :=
    sinkTakes_took (by rw [List.length_map]; exact hsink)
  have hrun : haltRoutine (rawEnter s) =
      .next (((rawEnter s).took (Config.haltNotice.map .byte ++ [.flush])).raise .haltTrap) := by
    rw [haltRoutine, afterOutput_ok hnotice, afterOutput_flush_ok hflush, took_took]
  rw [exec_halt, withRawMode_bracket hrun rfl, State.took, List.length_append, List.length_map, bracket_append]
  rfl

/-- Settles O34: the dispatcher finds no routine, and the stop appends nothing. -/
theorem unknownVectorStops : Obligations.UnknownVectorStops := by
  unfold Obligations.UnknownVectorStops
  intro v s hv
  have hrun : unknownRoutine v (rawEnter s) = .next ((rawEnter s).raise (.unknownTrap v)) := rfl
  rw [exec_trap_unknown hv, withRawMode_bracket hrun (List.append_nil _).symm, List.append_assoc]
  rfl

/-! ### A failing sink -/

theorem outRoutine_fail {s : State} (hk : s.sinkLimit = some 0) : outRoutine s = .next ((s.took []).raise .outputError) :=
  afterOutput_fail (bs := [lowByte (s.reg 0)]) hk Nat.one_pos

/-- HALT with a sink that fails in the notice or at the flush: what it took, and the stop with OutputError. -/
theorem haltRoutine_fail {s : State} {k : Nat} (hk : s.sinkLimit = some k) (h : k ≤ Config.haltNotice.length) :
    haltRoutine s = .next ((s.took ((Config.haltNotice.take k).map .byte)).raise .outputError) := by
  rcases h.lt_or_eq with hlt | rfl
  · exact afterOutput_fail hk hlt
  · have hnotice : s.sinkTakes Config.haltNotice.length := sinkTakes_of_limit hk (le_refl _)
    have hempty : (s.took (Config.haltNotice.map .byte)).sinkLimit = some 0 := by
      rw [State.took, List.length_map]
      exact sinkAfter_all hk
    rw [haltRoutine, afterOutput_ok hnotice, afterOutput_flush_fail hempty, List.take_length]

/-- IN with a sink that fails in the prompt, before any byte is read. -/
theorem inRoutine_prompt_fail {s : State} {k : Nat} (hk : s.sinkLimit = some k) (h : k < Config.inPrompt.length) :
    inRoutine s = .next ((s.took ((Config.inPrompt.take k).map .byte)).raise .outputError) := afterOutput_fail hk h

/-- IN with a sink that fails at the echo, after the byte is read. -/
theorem inRoutine_echo_fail {s : State} {b : Byte} {rest : List Arrival} (hk : s.sinkLimit = some Config.inPrompt.length)
    (h : Arrives s b rest) :
    inRoutine s = .next (((s.setInput rest).took (Config.inPrompt.map .byte)).raise .outputError) := by
  have hprompt : s.sinkTakes Config.inPrompt.length := sinkTakes_of_limit hk (le_refl _)
  have harrives : Arrives (s.took (Config.inPrompt.map .byte)) b rest := h
  have hfull : (s.setInput rest).sinkLimit = some (Config.inPrompt.map OutEvent.byte).length := by
    rw [List.length_map]
    exact hk
  rw [inRoutine, afterOutput_ok hprompt, afterInput_of_arrives harrives]
  exact afterOutput_byte_fail hfull

/-- Settles O35: each routine stops at its first failure, and what the sink took before stands between the brackets. -/
theorem routineOutputFailureStops : Obligations.RoutineOutputFailureStops := by
  unfold Obligations.RoutineOutputFailureStops
  refine ⟨fun s hk => ?_, fun s k hk hle => ?_, fun s k rest hk hle hrest => ?_⟩
  · rw [exec_out, withRawMode_outputError rfl hk (outRoutine_fail (s := rawEnter s) hk), List.append_assoc, ← hk]
    rfl
  · rw [exec_halt]
    exact withRawMode_outputError rfl (by rw [hk, List.length_map, List.length_take_of_le hle])
      (haltRoutine_fail (s := rawEnter s) hk hle)
  · rw [exec_inChar]
    split at hrest
    · next hlt =>
      subst hrest
      exact withRawMode_outputError rfl (by rw [hk, List.length_map, List.length_take_of_le hle])
        (inRoutine_prompt_fail (s := rawEnter s) hk hlt)
    · next hge =>
      obtain rfl : k = Config.inPrompt.length := le_antisymm hle (Nat.le_of_not_lt hge)
      obtain ⟨n, b, h⟩ := hrest
      rw [List.take_length]
      exact withRawMode_outputError (t := s.setInput rest) rfl (by rw [List.length_map]; exact hk)
        (inRoutine_echo_fail (s := rawEnter s) hk ⟨n, h⟩)

/-- Settles O37: the read finds no byte; the prompt before it only writes. -/
theorem blockingReadWithoutInputIsStuck : Obligations.BlockingReadWithoutInputIsStuck := by
  unfold Obligations.BlockingReadWithoutInputIsStuck
  intro s n hin hrest
  rw [exec_getc, exec_inChar]
  refine ⟨withRawMode_fault (afterInput_never (s := rawEnter s) hin hrest), fun hsink => withRawMode_fault ?_⟩
  rw [inRoutine, afterOutput_ok (s := rawEnter s) hsink]
  exact afterInput_never (s := (rawEnter s).took (Config.inPrompt.map .byte)) hin hrest

end Sys2Proof.Machine
end

section
/-! PROOFS. The string routines over a string that ends, or that the sink cuts off (43_trap.md R185, R187, R191;
60_exceptions.md R242). -/

namespace Sys2Proof.Machine

/-! ### What the reads of a string change -/

/-- Only what a poll changes is changed. -/
structure ReadFrame (s t : State) : Prop where
  state : t = { s with mem := t.mem, input := t.input }
  mem : ∀ a, a ≠ Config.kbsrAddr → a ≠ Config.kbdrAddr → t.mem.read a = s.mem.read a

theorem ReadFrame.refl (s : State) : ReadFrame s s := ⟨rfl, fun _ _ _ => rfl⟩

theorem ReadFrame.trans {s t u : State} (h : ReadFrame s t) (k : ReadFrame t u) : ReadFrame s u := by
  refine ⟨?_, fun a h1 h2 => (k.mem a h1 h2).trans (h.mem a h1 h2)⟩
  rw [k.state, h.state]

theorem readFrame_memRead (a : Word) (s : State) : ReadFrame s (memRead a s).2 :=
  ⟨memRead_frame a s, fun b => memRead_other a b s⟩

theorem addr_succ (a : Word) (n : Nat) : a + 1 + BitVec.ofNat 16 n = a + BitVec.ofNat 16 (n + 1) := by
  rw [BitVec.add_assoc, BitVec.ofNat_add, BitVec.add_comm (BitVec.ofNat 16 n)]
  rfl

/-- A walk that avoids KBSR_ADDR avoids it at its first word and after it. -/
theorem avoidsStatus_succ {a : Word} {n : Nat} (h : AvoidsStatus a (n + 1)) :
    a ≠ Config.kbsrAddr ∧ AvoidsStatus (a + 1) n := by
  refine ⟨by simpa using h 0 (Nat.succ_pos n), fun j hj => ?_⟩
  rw [addr_succ]
  exact h (j + 1) (Nat.succ_lt_succ hj)

theorem readsWords_frame {s t : State} {a : Word} {ws : List Word} (h : ReadsWords s a ws t) :
    ReadFrame s t ∧ (AvoidsStatus a ws.length → t = s) := by
  induction ws generalizing s a with
  | nil =>
    obtain rfl : t = s := h
    exact ⟨ReadFrame.refl t, fun _ => rfl⟩
  | cons w ws ih =>
    obtain ⟨-, -, hrest⟩ := h
    obtain ⟨hframe, hplain⟩ := ih hrest
    refine ⟨(readFrame_memRead a s).trans hframe, fun havoid => ?_⟩
    obtain ⟨ha, hnext⟩ := avoidsStatus_succ havoid
    rw [hplain hnext, memRead_plain s ha]

/-- The words of a string and its terminator as one walk. -/
theorem readsString_frame {s t : State} {a : Word} {ws : List Word} (h : ReadsString s a ws t) :
    ReadFrame s t ∧ (AvoidsStatus a (ws.length + 1) → t = s) := by
  obtain ⟨u, hwords, hend⟩ := h
  obtain ⟨hframe, hplain⟩ := readsWords_frame hwords
  have ht : (memRead (a + BitVec.ofNat 16 ws.length) u).2 = t := by rw [hend]
  refine ⟨hframe.trans (ht ▸ readFrame_memRead _ u), fun havoid => ?_⟩
  rw [← ht, memRead_plain u (havoid _ (Nat.lt_succ_self _))]
  exact hplain fun j hj => havoid j (Nat.lt_succ_of_lt hj)

theorem half_length_cons_cons (b c : Byte) (bs : List Byte) : (b :: c :: bs).length / 2 = bs.length / 2 + 1 :=
  Nat.add_div_right bs.length Nat.two_pos

theorem readsPacked_frame {s t : State} {a : Word} {bs : List Byte} (h : ReadsPacked s a bs t) :
    ReadFrame s t ∧ (AvoidsStatus a (bs.length / 2 + 1) → t = s) := by
  have hlast {s t : State} {a : Word} (ht : t = (memRead a s).2) : ReadFrame s t ∧ (AvoidsStatus a 1 → t = s) := by
    subst ht
    refine ⟨readFrame_memRead a s, fun havoid => ?_⟩
    rw [memRead_plain s (avoidsStatus_succ havoid).1]
  induction s, a, bs, t using ReadsPacked.induct with
  | case1 s a t =>
    obtain ⟨-, ht⟩ := h
    exact hlast ht
  | case2 s a b t =>
    obtain ⟨-, -, -, ht⟩ := h
    rw [List.length_singleton]
    exact hlast ht
  | case3 s a b c bs t ih =>
    obtain ⟨-, -, -, -, hrest⟩ := h
    obtain ⟨hframe, hplain⟩ := ih hrest
    refine ⟨(readFrame_memRead a s).trans hframe, fun havoid => ?_⟩
    rw [half_length_cons_cons] at havoid
    obtain ⟨ha, hnext⟩ := avoidsStatus_succ havoid
    rw [hplain hnext, memRead_plain s ha]

theorem readsBytes_frame {s t : State} {a : Word} {bs : List Byte} (h : ReadsBytes s a bs t) : ReadFrame s t := by
  induction s, a, bs, t using ReadsBytes.induct with
  | case1 s a t =>
    obtain rfl : t = s := h
    exact ReadFrame.refl t
  | case2 s a b t =>
    obtain ⟨-, -, rfl⟩ := h
    exact readFrame_memRead a s
  | case3 s a b c bs t ih =>
    obtain ⟨-, -, -, -, hrest⟩ := h
    exact (readFrame_memRead a s).trans (ih hrest)

/-! ### One turn of each loop, between the brackets -/

/-- The machine between the brackets after a routine's calls. -/
def State.within (s : State) (es : List OutEvent) : State := (rawEnter s).took es

section
variable {s : State} {a : Word} {es : List OutEvent} {n : Nat}

/-- A read sees neither the brackets nor the trace nor the sink. -/
theorem memRead_within (a : Word) (s : State) (es : List OutEvent) :
    memRead a (s.within es) = ((memRead a s).1, (memRead a s).2.within es) := by
  rw [memRead_congr (s := s) (t := s.within es) rfl rfl rfl, Prod.mk.injEq]
  refine ⟨rfl, ?_⟩
  obtain ⟨_, _, -, e, -⟩ := memRead_state a s
  rw [e]
  rfl

theorem sinkTakes_memRead {k : Nat} (h : s.sinkTakes k) : (memRead a s).2.sinkTakes k := by
  rw [State.sinkTakes, memRead_sinkLimit]
  exact h

theorem sinkTakes_le {j k : Nat} (h : s.sinkTakes k) (hjk : j ≤ k) : s.sinkTakes j := fun l hl => hjk.trans (h l hl)

theorem putsLoop_turn (hw : (memRead a s).1 ≠ 0) (hsink : s.sinkTakes (es.length + 1)) :
    putsLoop (n + 1) a (s.within es) =
      putsLoop n (a + 1) ((memRead a s).2.within (es ++ [.byte (lowByte (memRead a s).1)])) := by
  rw [putsLoop_more (by rw [memRead_within]; exact hw), memRead_within]
  exact afterOutput_byte_ok (sinkTakes_memRead hsink)

theorem putsLoop_cut (hw : (memRead a s).1 ≠ 0) (hk : s.sinkLimit = some es.length) :
    putsLoop (n + 1) a (s.within es) = .next (((memRead a s).2.within es).raise .outputError) := by
  rw [putsLoop_more (by rw [memRead_within]; exact hw), memRead_within]
  exact afterOutput_byte_fail ((memRead_sinkLimit a s).trans hk)

/-- The low byte out, and what follows it. -/
theorem putspLoop_low (hl : lowByte (memRead a s).1 ≠ 0) (hsink : s.sinkTakes (es.length + 1)) :
    putspLoop (n + 1) a (s.within es) =
      if highByte (memRead a s).1 = 0 then .next ((memRead a s).2.within (es ++ [.byte (lowByte (memRead a s).1)]))
      else afterOutput (outByte (highByte (memRead a s).1)
        ((memRead a s).2.within (es ++ [.byte (lowByte (memRead a s).1)]))) fun u => putspLoop n (a + 1) u := by
  rw [putspLoop_more (by rw [memRead_within]; exact hl), memRead_within]
  exact afterOutput_byte_ok (sinkTakes_memRead hsink)

theorem putspLoop_turn (hl : lowByte (memRead a s).1 ≠ 0) (hh : highByte (memRead a s).1 ≠ 0)
    (hsink : s.sinkTakes (es.length + 2)) : putspLoop (n + 1) a (s.within es) =
      putspLoop n (a + 1) ((memRead a s).2.within
        (es ++ [.byte (lowByte (memRead a s).1), .byte (highByte (memRead a s).1)])) := by
  have hboth : (memRead a s).2.sinkTakes ((es ++ [OutEvent.byte (lowByte (memRead a s).1)]).length + 1) := by
    rw [List.length_append]
    exact sinkTakes_memRead hsink
  rw [putspLoop_low hl (sinkTakes_le hsink (Nat.le_succ _)), if_neg hh]
  refine (afterOutput_byte_ok (s := rawEnter (memRead a s).2) hboth).trans ?_
  rw [List.append_assoc]
  rfl

theorem putspLoop_cut_low (hl : lowByte (memRead a s).1 ≠ 0) (hk : s.sinkLimit = some es.length) :
    putspLoop (n + 1) a (s.within es) = .next (((memRead a s).2.within es).raise .outputError) := by
  rw [putspLoop_more (by rw [memRead_within]; exact hl), memRead_within]
  exact afterOutput_byte_fail ((memRead_sinkLimit a s).trans hk)

theorem putspLoop_cut_high (hl : lowByte (memRead a s).1 ≠ 0) (hh : highByte (memRead a s).1 ≠ 0)
    (hk : s.sinkLimit = some (es.length + 1)) : putspLoop (n + 1) a (s.within es) =
      .next (((memRead a s).2.within (es ++ [.byte (lowByte (memRead a s).1)])).raise .outputError) := by
  have hone : s.sinkTakes (es.length + 1) := sinkTakes_of_limit hk (le_refl _)
  have hfull : (memRead a s).2.sinkLimit = some (es ++ [OutEvent.byte (lowByte (memRead a s).1)]).length := by
    rw [memRead_sinkLimit, hk, List.length_append]
    rfl
  rw [putspLoop_low hl hone, if_neg hh]
  exact afterOutput_byte_fail hfull

end

/-! ### The loops over a string -/

/-- The events of a word string: its low bytes (R185). -/
def wordEvents (ws : List Word) : List OutEvent := ws.map fun w => .byte (BitVec.ofNat 8 w.toNat)

theorem length_wordEvents (ws : List Word) : (wordEvents ws).length = ws.length := List.length_map _

/-- The PUTS loop over non-zero words that the sink takes. -/
theorem putsLoop_readsWords {s u : State} {a : Word} {ws : List Word} {es : List OutEvent} (n : Nat)
    (h : ReadsWords s a ws u) (hsink : s.sinkTakes (es.length + ws.length)) :
    putsLoop (ws.length + n) a (s.within es) =
      putsLoop n (a + BitVec.ofNat 16 ws.length) (u.within (es ++ wordEvents ws)) := by
  induction ws generalizing s a es with
  | nil =>
    obtain rfl : u = s := h
    simp [wordEvents]
  | cons w ws ih =>
    obtain ⟨rfl, hne, hrest⟩ := h
    rw [List.length_cons] at hsink
    have hbyte : s.sinkTakes (es.length + 1) := sinkTakes_le hsink (by omega)
    have htail : (memRead a s).2.sinkTakes ((es ++ [OutEvent.byte (lowByte (memRead a s).1)]).length + ws.length) := by
      rw [List.length_append, Nat.add_right_comm]
      exact sinkTakes_memRead hsink
    rw [List.length_cons, Nat.add_right_comm, putsLoop_turn hne hbyte, ih hrest htail, addr_succ, List.append_assoc]
    rfl

theorem putsLoop_readsString {s t : State} {a : Word} {ws : List Word} (h : ReadsString s a ws t)
    (hsink : s.sinkTakes ws.length) :
    putsLoop (ws.length + 1) a (s.within []) = .next (t.within (wordEvents ws)) := by
  obtain ⟨u, hwords, hend⟩ := h
  rw [putsLoop_readsWords 1 hwords (by simpa using hsink), List.nil_append,
    putsLoop_end (by rw [memRead_within, hend]), memRead_within, hend]

/-- A walk's last read apart from those before it. -/
theorem readsWords_append_singleton {s t : State} {a w : Word} {ws : List Word} (h : ReadsWords s a (ws ++ [w]) t) :
    ∃ u, ReadsWords s a ws u ∧ memRead (a + BitVec.ofNat 16 ws.length) u = (w, t) ∧ w ≠ 0 := by
  induction ws generalizing s a with
  | nil =>
    obtain ⟨hw, hne, rfl⟩ := h
    exact ⟨s, rfl, by rw [← hw, List.length_nil, BitVec.add_zero], hne⟩
  | cons v ws ih =>
    obtain ⟨hv, hvne, hrest⟩ := h
    obtain ⟨u, hwords, hread, hne⟩ := ih hrest
    exact ⟨u, ⟨hv, hvne, hwords⟩, by rw [List.length_cons, ← addr_succ, hread], hne⟩

/-- The PUTS loop over words whose last one finds the sink full. -/
theorem putsLoop_readsWords_cut {s t : State} {a : Word} {ws : List Word} {w : Word}
    (h : ReadsWords s a (ws ++ [w]) t) (hk : s.sinkLimit = some ws.length) :
    putsLoop (ws.length + 1) a (s.within []) = .next ((t.within (wordEvents ws)).raise .outputError) := by
  obtain ⟨u, hwords, hread, hne⟩ := readsWords_append_singleton h
  have htakes : s.sinkTakes ws.length := sinkTakes_of_limit hk (le_refl _)
  have hfull : u.sinkLimit = some ([] ++ wordEvents ws).length := by
    rw [(readsWords_frame hwords).1.state, List.nil_append, length_wordEvents]
    exact hk
  have ht : (memRead (a + BitVec.ofNat 16 ws.length) u).2 = t := by rw [hread]
  rw [putsLoop_readsWords 1 hwords (by simpa using htakes), putsLoop_cut (by rw [hread]; exact hne) hfull, ht]
  rfl

/-- The PUTSP loop over a packed string that the sink takes. -/
theorem putspLoop_readsPacked {s t : State} {a : Word} {bs : List Byte} {es : List OutEvent}
    (h : ReadsPacked s a bs t) (hsink : s.sinkTakes (es.length + bs.length)) :
    putspLoop (bs.length / 2 + 1) a (s.within es) = .next (t.within (es ++ bs.map .byte)) := by
  induction s, a, bs, t using ReadsPacked.induct generalizing es with
  | case1 s a t =>
    obtain ⟨hlow, rfl⟩ := h
    rw [putspLoop_end (by rw [memRead_within]; exact hlow), memRead_within, List.map_nil, List.append_nil]
  | case2 s a b t =>
    obtain ⟨rfl, hne, hhigh, rfl⟩ := h
    rw [putspLoop_low hne hsink, if_pos hhigh]
    rfl
  | case3 s a b c bs t ih =>
    obtain ⟨rfl, hl, rfl, hh, hrest⟩ := h
    have htail : (memRead a s).2.sinkTakes ((es ++ [OutEvent.byte (lowByte (memRead a s).1),
        .byte (highByte (memRead a s).1)]).length + bs.length) := by
      rw [List.length_append, Nat.add_right_comm]
      exact sinkTakes_memRead hsink
    rw [half_length_cons_cons, putspLoop_turn hl hh (sinkTakes_le hsink (by simp)), ih hrest htail, List.append_assoc]
    rfl

/-- The PUTSP loop over characters whose last one finds the sink full. -/
theorem putspLoop_readsBytes_cut {s t : State} {a : Word} {bs : List Byte} {b : Byte} {es : List OutEvent}
    (h : ReadsBytes s a (bs ++ [b]) t) (hk : s.sinkLimit = some (es.length + bs.length)) :
    putspLoop (bs.length / 2 + 1) a (s.within es) = .next ((t.within (es ++ bs.map .byte)).raise .outputError) := by
  induction bs using List.twoStepInduction generalizing s a es with
  | nil =>
    obtain ⟨rfl, hne, rfl⟩ := h
    rw [List.map_nil, List.append_nil]
    exact putspLoop_cut_low hne hk
  | singleton c =>
    obtain ⟨rfl, hl, rfl, hh, hrest⟩ := h
    obtain rfl : t = (memRead a s).2 := hrest
    exact putspLoop_cut_high hl hh hk
  | cons_cons c d bs ih =>
    obtain ⟨rfl, hl, rfl, hh, hrest⟩ := h
    have htakes : s.sinkTakes (es.length + 2) := sinkTakes_of_limit hk (by simp)
    have htail : (memRead a s).2.sinkLimit = some ((es ++ [OutEvent.byte (lowByte (memRead a s).1),
        .byte (highByte (memRead a s).1)]).length + bs.length) := by
      rw [memRead_sinkLimit, hk, List.length_append]
      simp; omega
    rw [half_length_cons_cons, putspLoop_turn hl hh htakes, ih hrest htail, List.append_assoc]
    rfl

end Sys2Proof.Machine
end

section
/-! PROOFS. Where the string loops end (43_trap.md R185, R187): PUTSP always does, at KBSR_ADDR at the latest; and where
PUTS has not ended within its bound, it never does, since polls no longer change any word. -/

namespace Sys2Proof.Machine

/-! ### More reads do not change an answer -/

theorem afterOutput_mono {r : State × Bool} {f g : State → Host.Outcome State Fault Refusal} {t : State}
    (hfg : ∀ u, f u = .next t → g u = .next t) (h : afterOutput r f = .next t) : afterOutput r g = .next t := by
  unfold afterOutput at h ⊢
  split
  · next hr => exact hfg _ (by rwa [if_pos hr] at h)
  · next hr => rwa [if_neg hr] at h

theorem putsLoop_mono {n m : Nat} {a : Word} {s t : State} (h : putsLoop n a s = .next t) (hnm : n ≤ m) :
    putsLoop m a s = .next t := by
  induction n generalizing m a s with
  | zero => cases h
  | succ n ih =>
    obtain ⟨m, rfl⟩ := Nat.exists_eq_add_of_le' hnm
    by_cases hw : (memRead a s).1 = 0
    · rw [← h]
      exact (putsLoop_end hw).trans (putsLoop_end hw).symm
    · rw [putsLoop_more hw] at h
      exact (putsLoop_more hw).trans (afterOutput_mono (fun u hu => ih hu (Nat.le_add_left n m)) h)

theorem putspLoop_mono {n m : Nat} {a : Word} {s t : State} (h : putspLoop n a s = .next t) (hnm : n ≤ m) :
    putspLoop m a s = .next t := by
  induction n generalizing m a s with
  | zero => cases h
  | succ n ih =>
    obtain ⟨m, rfl⟩ := Nat.exists_eq_add_of_le' hnm
    by_cases hl : lowByte (memRead a s).1 = 0
    · rw [← h]
      exact (putspLoop_end hl).trans (putspLoop_end hl).symm
    · rw [putspLoop_more hl] at h
      refine (putspLoop_more hl).trans (afterOutput_mono (fun u hu => ?_) h)
      split at hu
      · next hh => rwa [if_pos hh]
      · next hh =>
        rw [if_neg hh]
        exact afterOutput_mono (fun v hv => ih hv (Nat.le_add_left n m)) hu

/-! ### PUTSP ends at KBSR_ADDR at the latest -/

/-- Both words that a poll can leave at KBSR_ADDR have a zero low byte (R53; 92 D8). -/
theorem lowByte_status (s : State) : lowByte (memRead Config.kbsrAddr s).1 = 0 := by
  rw [memRead_status_value]
  split <;> decide

theorem afterOutput_answers {r : State × Bool} {f : State → Host.Outcome State Fault Refusal}
    (h : ∀ u, ∃ t, f u = .next t) : ∃ t, afterOutput r f = .next t := by
  unfold afterOutput
  split
  · exact h _
  · exact ⟨_, rfl⟩

theorem putspLoop_answers {n : Nat} {a : Word} (s : State) (h : statusDistance a < n) :
    ∃ t, putspLoop n a s = .next t := by
  induction n generalizing a s with
  | zero => omega
  | succ n ih =>
    by_cases hl : lowByte (memRead a s).1 = 0
    · exact ⟨_, putspLoop_end hl⟩
    · have ha : a ≠ Config.kbsrAddr := fun e => hl (e ▸ lowByte_status s)
      have hnext : statusDistance (a + 1) < n := by have := statusDistance_succ ha; omega
      rw [putspLoop_more hl]
      refine afterOutput_answers fun u => ?_
      split
      · exact ⟨_, rfl⟩
      · exact afterOutput_answers fun v => ih v hnext

theorem putspRoutine_answers (s : State) : ∃ t, putspRoutine s = .next t :=
  putspLoop_answers s (by have := statusDistance_lt (s.reg trapReg); unfold stringFuel; omega)

/-- Settles O39: the model's bound is past KBSR_ADDR. -/
theorem putspAlwaysCompletes : Obligations.PutspAlwaysCompletes := by
  unfold Obligations.PutspAlwaysCompletes
  intro s
  obtain ⟨t, h⟩ := putspRoutine_answers (rawEnter s)
  exact ⟨_, (exec_putsp s).trans (withRawMode_next h)⟩

/-- Whatever number of reads the loop answers within, the routine answers the same. -/
theorem putspRoutine_of_loop {n : Nat} {s t : State} (h : putspLoop n (s.reg trapReg) s = .next t) :
    putspRoutine s = .next t := by
  obtain ⟨u, hu⟩ := putspRoutine_answers s
  rw [hu, ← putspLoop_mono hu (le_max_left _ n), putspLoop_mono h (le_max_right _ _)]

/-! ### PUTS that has not ended within its bound never ends -/

/-- The loop has not ended within `n` reads. -/
def Unended (n : Nat) (a : Word) (s : State) : Prop := putsLoop n a s = .fault .endlessString

theorem Unended.le {n m : Nat} {a : Word} {s : State} (h : Unended m a s) (hnm : n ≤ m) : Unended n a s := by
  rcases putsLoop_total n a s with ⟨t, ht⟩ | hn
  · have := (putsLoop_mono ht hnm).symm.trans h
    cases this
  · exact hn

/-- The machine after one turn of the loop that the sink takes. -/
def afterTurn (a : Word) (s : State) : State := (memRead a s).2.emit [.byte (lowByte (memRead a s).1)]

/-- With a sink that never fails, one turn. -/
theorem unended_succ {n : Nat} {a : Word} {s : State} (hsink : s.sinkLimit = none) :
    Unended (n + 1) a s ↔ (memRead a s).1 ≠ 0 ∧ Unended n (a + 1) (afterTurn a s) := by
  unfold Unended
  by_cases hw : (memRead a s).1 = 0
  · rw [putsLoop_end hw]
    exact iff_of_false (fun h => by cases h) (fun h => h.1 hw)
  · rw [putsLoop_more hw, outByte_unlimited ((memRead_sinkLimit a s).trans hsink)]
    exact ⟨fun h => ⟨hw, h⟩, fun h => h.2⟩

/-- A sink that fails ends the loop at its limit. -/
theorem putsLoop_answers_of_limit {n k : Nat} {a : Word} {s : State} (hk : s.sinkLimit = some k) (hkn : k < n) :
    ∃ t, putsLoop n a s = .next t := by
  induction n generalizing a s k with
  | zero => omega
  | succ n ih =>
    have hread : (memRead a s).2.sinkLimit = some k := (memRead_sinkLimit a s).trans hk
    by_cases hw : (memRead a s).1 = 0
    · exact ⟨_, putsLoop_end hw⟩
    · rw [putsLoop_more hw]
      rcases Nat.eq_zero_or_pos k with rfl | hpos
      · exact ⟨_, afterOutput_fail (bs := [lowByte (memRead a s).1]) hread Nat.one_pos⟩
      · have htakes : (memRead a s).2.sinkTakes 1 := sinkTakes_of_limit hread hpos
        have hleft : ((memRead a s).2.took [.byte (lowByte (memRead a s).1)]).sinkLimit = some (k - 1) := by
          rw [State.took, State.setSinkLimit_sinkLimit, State.sinkAfter, hread]
          rfl
        rw [outByte, afterOutput_ok htakes]
        exact ih hleft (by omega)

/-! ### A machine on which polls no longer change any word -/

theorem Settled.emit {b : Byte} {s : State} (h : Settled b s) (es : List OutEvent) : Settled b (s.emit es) :=
  ⟨h.sink, h.input, h.rest, h.status, h.data⟩

/-- With the arrivals used up and a source that answers for ever, one poll settles the machine. -/
theorem settled_memRead_status {b : Byte} {s : State} (hsink : s.sinkLimit = none) (hin : s.input = [])
    (hrest : s.inputRest = some b) : Settled b (memRead Config.kbsrAddr s).2 := by
  have hpoll : inPoll s = (some b, s) := by rw [inPoll, hin, hrest]
  have hne : Config.kbdrAddr ≠ Config.kbsrAddr := by decide
  refine ⟨(memRead_sinkLimit _ s).trans hsink, ?_, (memRead_inputRest _ s).trans hrest, ?_, ?_⟩ <;> rw [memRead_status]
  · rw [poll_frame, hpoll]
    exact hin
  · rw [poll_read, if_pos rfl, hpoll]
    rfl
  · rw [poll_read, if_neg hne, if_pos rfl, hpoll]
    rfl

/-- On a settled machine the words that the loop has read are none of them 0x0000. -/
theorem Settled.ne_zero_of_unended {b : Byte} {n j : Nat} {a : Word} {s : State} (hs : Settled b s) (h : Unended n a s)
    (hj : j < n) : s.mem.read (a + BitVec.ofNat 16 j) ≠ 0 := by
  induction n generalizing a s j with
  | zero => omega
  | succ n ih =>
    obtain ⟨hw, hrest⟩ := (unended_succ hs.sink).mp h
    obtain ⟨hvalue, hsettled, hkeeps⟩ := hs.read a
    cases j with
    | zero =>
      rw [hvalue] at hw
      simpa using hw
    | succ j =>
      rw [← addr_succ, ← hkeeps]
      exact ih (s := afterTurn a s) (hsettled.emit [.byte (lowByte (memRead a s).1)]) hrest (Nat.lt_of_succ_lt_succ hj)

/-- A pass over all words but KBSR, which is not 0x0000 either, shows that the loop never ends. -/
theorem Settled.unended {b : Byte} {s : State} (hs : Settled b s) (h : Unended 65535 (Config.kbsrAddr + 1) s) (n : Nat)
    (a : Word) : Unended n a s := by
  refine hs.putsLoop_stuck n a fun x => ?_
  by_cases hx : x = Config.kbsrAddr
  · rw [hx, hs.status]
    decide
  · have hj : (x - (Config.kbsrAddr + 1)).toNat < 65535 := by
      generalize Config.kbsrAddr = k at hx
      bv_omega
    have hword := hs.ne_zero_of_unended h hj
    rwa [BitVec.ofNat_toNat, BitVec.setWidth_eq, BitVec.add_comm, BitVec.sub_add_cancel] at hword

/-! ### From any machine -/

/-- A poll with an arrival left uses up one. -/
theorem memRead_status_input {s : State} {i : Arrival} {rest : List Arrival} (hin : s.input = i :: rest) :
    (memRead Config.kbsrAddr s).2.input = rest := by
  rw [memRead_status, poll_frame]
  cases i <;> rw [inPoll, hin] <;> rfl

/-- With a sink that never fails, a loop that has not ended by the first pass of KBSR_ADDR after the last arrival, and over
all other words after that, never ends, and the source answers for ever. -/
theorem unended_forever {m : Nat} {a : Word} {s : State} (hsink : s.sinkLimit = none)
    (hm : m = 65536 * (s.input.length + 1) + statusDistance a) (h : Unended m a s) :
    s.inputRest ≠ none ∧ ∀ n, Unended n a s := by
  induction m generalizing a s with
  | zero => omega
  | succ m ih =>
    obtain ⟨hw, hrest⟩ := (unended_succ hsink).mp h
    have hturnSink : (afterTurn a s).sinkLimit = none := (memRead_sinkLimit a s).trans hsink
    have hturnRest : (afterTurn a s).inputRest = s.inputRest := memRead_inputRest a s
    suffices hnext : s.inputRest ≠ none ∧ ∀ n, Unended n (a + 1) (afterTurn a s) by
      refine ⟨hnext.1, fun n => ?_⟩
      cases n with
      | zero => rfl
      | succ n => exact (unended_succ hsink).mpr ⟨hw, hnext.2 n⟩
    by_cases ha : a = Config.kbsrAddr
    · subst ha
      have hzero : statusDistance Config.kbsrAddr = 0 := statusDistance_eq_zero.mpr rfl
      have hfar : statusDistance (Config.kbsrAddr + 1) = 65535 := by decide
      cases hin : s.input with
      | nil =>
        rw [hin, List.length_nil, hzero] at hm
        obtain rfl : m = 65535 := by omega
        cases hb : s.inputRest with
        | none =>
          rw [memRead_status_value, inPoll, hin, hb] at hw
          exact absurd rfl hw
        | some b =>
          have hs : Settled b (afterTurn Config.kbsrAddr s) := (settled_memRead_status hsink hin hb).emit _
          exact ⟨Option.some_ne_none b, fun n => hs.unended hrest n _⟩
      | cons i rest =>
        have hturnIn : (afterTurn Config.kbsrAddr s).input = rest := memRead_status_input hin
        rw [hin, List.length_cons, hzero] at hm
        rw [← hturnRest]
        exact ih hturnSink (by rw [hturnIn, hfar]; omega) hrest
    · have hturnIn : (afterTurn a s).input = s.input := by rw [afterTurn, memRead_plain s ha]; rfl
      have hdist := statusDistance_succ ha
      rw [← hturnRest]
      exact ih hturnSink (by rw [hturnIn]; omega) hrest

/-- Where PUTS stops with a fault, the source answers for ever, and no number of reads ends the loop. -/
theorem putsRoutine_fault {s : State} {f : Fault} (h : putsRoutine s = .fault f) :
    f = .endlessString ∧ s.inputRest ≠ none ∧ ∀ n, Unended n (s.reg trapReg) s := by
  have hunended : Unended (stringFuel s) (s.reg trapReg) s := by
    rcases putsLoop_total (stringFuel s) (s.reg trapReg) s with ⟨t, ht⟩ | hstuck
    · cases ht.symm.trans h
    · exact hstuck
  have hsink : s.sinkLimit = none := by
    by_contra hne
    obtain ⟨k, hk⟩ := Option.ne_none_iff_exists'.mp hne
    obtain ⟨t, ht⟩ := putsLoop_answers_of_limit (n := stringFuel s) (a := s.reg trapReg) hk
      (by rw [stringFuel, hk, Option.getD_some]; omega)
    cases ht.symm.trans h
  have hbound : 65536 * (s.input.length + 1) + statusDistance (s.reg trapReg) ≤ stringFuel s := by
    have := statusDistance_lt (s.reg trapReg)
    unfold stringFuel
    omega
  exact ⟨Host.Outcome.fault.inj (h.symm.trans hunended), unended_forever hsink rfl (hunended.le hbound)⟩

theorem putsRoutine_total (s : State) : (∃ t, putsRoutine s = .next t) ∨ ∃ f, putsRoutine s = .fault f :=
  (putsLoop_total _ _ s).imp id fun h => ⟨_, h⟩

/-- Whatever number of reads the loop answers within, the routine answers the same. -/
theorem putsRoutine_of_loop {n : Nat} {s t : State} (h : putsLoop n (s.reg trapReg) s = .next t) :
    putsRoutine s = .next t := by
  rcases putsRoutine_total s with ⟨u, hu⟩ | ⟨f, hf⟩
  · rw [hu, ← putsLoop_mono hu (le_max_left _ n), putsLoop_mono h (le_max_right _ _)]
  · cases ((putsRoutine_fault hf).2.2 n).symm.trans h

/-- A bracketed routine faults exactly when the routine does. -/
theorem withRawMode_fault_cases {f : State → Host.Outcome State Fault Refusal} {s : State} {e : Fault}
    (h : withRawMode f s = .fault e) : f (rawEnter s) = .fault e := by
  unfold withRawMode at h
  split at h
  · cases h
  · next e' he => cases h; exact he
  · cases h

/-- Settles O40: the bound of the model is past the point from which on the loop only repeats itself. -/
theorem stuckPutsNeverEnds : Obligations.StuckPutsNeverEnds := by
  unfold Obligations.StuckPutsNeverEnds
  intro s f h
  rw [exec_puts] at h
  obtain ⟨hf, -, hforever⟩ := putsRoutine_fault (withRawMode_fault_cases h)
  exact ⟨hf, hforever⟩

/-- Settles O38: a fault of PUTS needs a source that answers for ever. -/
theorem putsCompletesUnlessInputIsEndless : Obligations.PutsCompletesUnlessInputIsEndless := by
  unfold Obligations.PutsCompletesUnlessInputIsEndless
  intro s hrest
  rcases putsRoutine_total (rawEnter s) with ⟨t, ht⟩ | ⟨f, hf⟩
  · exact ⟨_, (exec_puts s).trans (withRawMode_next ht)⟩
  · exact absurd hrest (putsRoutine_fault hf).2.1

end Sys2Proof.Machine
end

section
/-! PROOFS. What PUTS and PUTSP write (43_trap.md R185, R187, R191; 60_exceptions.md R242). -/

namespace Sys2Proof.Machine

theorem within_nil (s : State) : s.within [] = rawEnter s := by
  have hout : (rawEnter s).output ++ [] = (rawEnter s).output := List.append_nil _
  have hsink : (rawEnter s).sinkAfter 0 = (rawEnter s).sinkLimit := by
    cases hk : (rawEnter s).sinkLimit <;> simp [State.sinkAfter, hk]
  rw [State.within, State.took, List.length_nil, hsink, State.emit, hout]
  rfl

/-- Settles O30: the loop answers within the string's own number of reads, so the routine answers the same. -/
theorem putsWritesTheWordString : Obligations.PutsWritesTheWordString := by
  unfold Obligations.PutsWritesTheWordString
  intro s t ws h hsink
  obtain ⟨hframe, hplain⟩ := readsString_frame h
  have hloop := putsLoop_readsString h hsink
  rw [within_nil] at hloop
  refine ⟨?_, hframe.state, hframe.mem, hplain⟩
  rw [exec_puts, withRawMode_took (by rw [hframe.state]) (by rw [hframe.state]) (putsRoutine_of_loop hloop),
    length_wordEvents]
  rfl

/-- Settles O32: as O30, two characters a read. -/
theorem putspWritesThePackedString : Obligations.PutspWritesThePackedString := by
  unfold Obligations.PutspWritesThePackedString
  intro s t bs h hsink
  obtain ⟨hframe, hplain⟩ := readsPacked_frame h
  have hloop := putspLoop_readsPacked (es := []) h (by simpa using hsink)
  rw [within_nil] at hloop
  refine ⟨?_, hframe.state, hframe.mem, hplain⟩
  rw [exec_putsp, withRawMode_took (by rw [hframe.state]) (by rw [hframe.state]) (putspRoutine_of_loop hloop),
    List.nil_append, List.length_map]

/-- Settles O36: both loops over the characters that the sink takes and one more. -/
theorem stringOutputFailureStops : Obligations.StringOutputFailureStops := by
  unfold Obligations.StringOutputFailureStops
  refine ⟨fun s t ws w h hk => ?_, fun s t bs b h hk => ?_⟩
  · have hloop := putsLoop_readsWords_cut h hk
    rw [within_nil] at hloop
    have hstate := (readsWords_frame h).1.state
    have hlen : t.sinkLimit = some (wordEvents ws).length := by rw [hstate, hk, length_wordEvents]
    rw [exec_puts, withRawMode_outputError (by rw [hstate]) hlen (putsRoutine_of_loop hloop)]
    rfl
  · have hloop := putspLoop_readsBytes_cut (es := []) h (by simpa using hk)
    rw [within_nil] at hloop
    have hstate := (readsBytes_frame h).state
    have hlen : t.sinkLimit = some (bs.map OutEvent.byte).length := by rw [hstate, hk, List.length_map]
    rw [exec_putsp, withRawMode_outputError (by rw [hstate]) hlen (putspRoutine_of_loop hloop)]

end Sys2Proof.Machine
end

section
/-! PROOFS. The image loader: what one image writes, which images are rejected, and the start of execution
(70_reset_and_hazards.md R252 to R255). -/

namespace Sys2Proof.Machine

/-! ### The bytes of an image (R252) -/

theorem wordOfBytes_halves (w : Word) : wordOfBytes (highByte w) (lowByte w) = w :=
  BitVec.extractLsb'_append_extractLsb'

theorem imageWords_short {bs : List Byte} (h : bs.length ≤ 1) : imageWords bs = [] := by
  match bs, h with
  | [], _ => rfl
  | [_], _ => rfl

/-- A payload's words come back from its bytes, and a final odd byte is dropped. -/
theorem imageWords_payload (ws : List Word) {odd : List Byte} (h : odd.length ≤ 1) :
    imageWords (payloadBytes ws ++ odd) = ws := by
  induction ws with
  | nil => exact imageWords_short h
  | cons w ws ih =>
    rw [payloadBytes, List.cons_append, List.cons_append, imageWords, wordOfBytes_halves, ih]

theorem length_imageWords (bs : List Byte) : (imageWords bs).length = bs.length / 2 := by
  induction bs using List.twoStepInduction with
  | nil => rfl
  | singleton b =>
    rw [imageWords_short (bs := [b]) (le_refl 1), List.length_singleton]
    rfl
  | cons_cons b c bs ih => rw [imageWords, List.length_cons, ih, half_length_cons_cons]

/-- The loader on an image given as its origin and words. -/
theorem loadImage_imageBytes (m : Memory) (origin : Word) (ws : List Word) {odd : List Byte} (h : odd.length ≤ 1) :
    loadImage m (imageBytes origin ws ++ odd) =
      if origin.toNat + ws.length > 65536 then .error .overflow else .ok (writeWords m origin ws) := by
  rw [imageBytes, List.cons_append, List.cons_append, loadImage, wordOfBytes_halves, imageWords_payload ws h]

/-! ### Words written from an origin on -/

/-- The word at an address is the one written at its distance from the origin, or, past the words, the old one. -/
theorem writeWords_read (m : Memory) (origin a : Word) {ws : List Word} (hlen : ws.length ≤ 65536) :
    (writeWords m origin ws).read a = ws[(a - origin).toNat]?.getD (m.read a) := by
  induction ws generalizing m origin with
  | nil => rfl
  | cons w ws ih =>
    rw [List.length_cons] at hlen
    rw [writeWords, ih _ _ (Nat.le_of_succ_le hlen)]
    by_cases ha : a = origin
    · have hnext : ws.length ≤ (a - (origin + 1)).toNat := by rw [ha]; bv_omega
      rw [List.getElem?_eq_none hnext, ha, BitVec.sub_self]
      exact Memory.read_write_same m origin w
    · have hdist : (a - origin).toNat = (a - (origin + 1)).toNat + 1 := by bv_omega
      rw [hdist, List.getElem?_cons_succ, Memory.read_write_other m w ha]

/-- Words that end within the address space: each of them, and every word outside. -/
theorem writeWords_read_fit (m : Memory) {origin : Word} {ws : List Word} (hfit : origin.toNat + ws.length ≤ 65536) :
    (∀ (j : Nat) (h : j < ws.length), (writeWords m origin ws).read (BitVec.ofNat 16 (origin.toNat + j)) = ws[j]) ∧
    ∀ a : Word, a.toNat < origin.toNat ∨ origin.toNat + ws.length ≤ a.toNat →
      (writeWords m origin ws).read a = m.read a := by
  have hlen : ws.length ≤ 65536 := by omega
  refine ⟨fun j h => ?_, fun a ha => ?_⟩
  · have hdist : (BitVec.ofNat 16 (origin.toNat + j) - origin).toNat = j := by
      rw [BitVec.toNat_sub, BitVec.toNat_ofNat]
      omega
    rw [writeWords_read m origin _ hlen, hdist, List.getElem?_eq_getElem h, Option.getD_some]
  · have hdist : ws.length ≤ (a - origin).toNat := by
      have := a.isLt
      rw [BitVec.toNat_sub]
      omega
    rw [writeWords_read m origin a hlen, List.getElem?_eq_none hdist, Option.getD_none]

/-- An image that fits loads its words. -/
theorem loadImage_fit (m : Memory) {origin : Word} {ws : List Word} {odd : List Byte} (hodd : odd.length ≤ 1)
    (hfit : origin.toNat + ws.length ≤ 65536) :
    loadImage m (imageBytes origin ws ++ odd) = .ok (writeWords m origin ws) := by
  rw [loadImage_imageBytes m origin ws hodd, if_neg (Nat.not_lt.mpr hfit)]

/-- Settles O57: the loader gives the words written from the origin on (`loadImage_fit`), read back by `writeWords_read_fit`. -/
theorem imageLoadsItsWords : Obligations.ImageLoadsItsWords := by
  unfold Obligations.ImageLoadsItsWords
  exact fun m origin ws odd hodd hfit => ⟨_, loadImage_fit m hodd hfit, writeWords_read_fit m hfit⟩

/-! ### One image after another (R253, R254) -/

theorem loadAll_cons_ok {m m' : Memory} {image : Option (List Byte)} (rest : List (Option (List Byte)))
    (h : loadStream m image = .ok m') :
    loadAll m (image :: rest) = ((loadAll m' rest).1, none :: (loadAll m' rest).2) := by
  rw [loadAll, h]

theorem loadAll_cons_error {m : Memory} {image : Option (List Byte)} {e : LoadError} (rest : List (Option (List Byte)))
    (h : loadStream m image = .error e) :
    loadAll m (image :: rest) = ((loadAll m rest).1, some e :: (loadAll m rest).2) := by
  rw [loadAll, h]

/-- Settles O58: each error is a branch of the loader, on the image taken apart as origin, words and an odd byte. -/
theorem badImagesAreRejected : Obligations.BadImagesAreRejected := by
  unfold Obligations.BadImagesAreRejected
  refine ⟨fun m bytes h => ?_, fun m => rfl, fun m origin ws odd hodd hover => ?_, fun m image rest e h =>
    loadAll_cons_error rest h⟩
  · match bytes, h with
    | [], _ => rfl
    | [_], _ => rfl
  · exact (loadImage_imageBytes m origin ws hodd).trans (if_pos hover)

/-- The memory after a last image that loads is the one it leaves from that of the images before it. -/
theorem loadAll_append_ok {m m' : Memory} {first : List (Option (List Byte))} {image : Option (List Byte)}
    (h : loadStream (loadAll m first).1 image = .ok m') : (loadAll m (first ++ [image])).1 = m' := by
  induction first generalizing m with
  | nil => exact congrArg Prod.fst (loadAll_cons_ok [] h)
  | cons x first ih =>
    rw [List.cons_append]
    cases hx : loadStream m x with
    | ok n =>
      rw [loadAll_cons_ok _ hx] at h ⊢
      exact ih h
    | error e =>
      rw [loadAll_cons_error _ hx] at h ⊢
      exact ih h

/-- Settles O60: whatever the images before it leave, the last one writes its words there. -/
theorem laterImagesOverwriteEarlier : Obligations.LaterImagesOverwriteEarlier := by
  unfold Obligations.LaterImagesOverwriteEarlier
  intro m first origin ws hfit
  have hload : loadStream (loadAll m first).1 (some (imageBytes origin ws)) =
      .ok (writeWords (loadAll m first).1 origin ws) := by
    have h := loadImage_fit (loadAll m first).1 (odd := []) (Nat.zero_le 1) hfit
    rwa [List.append_nil] at h
  rw [loadAll_append_ok hload]
  exact writeWords_read_fit _ hfit

/-! ### The start of execution (R253, R255) -/

/-- An image that loads: two bytes of origin and a payload that ends within the address space. -/
def ImageFits (image : Option (List Byte)) : Prop := ∃ h l payload, image = some (h :: l :: payload) ∧
  256 * h.toNat + l.toNat + payload.length / 2 ≤ 65536

theorem wordOfBytes_toNat (h l : Byte) : (wordOfBytes h l).toNat = 256 * h.toNat + l.toNat := by
  rw [wordOfBytes, BitVec.toNat_append, ← Nat.shiftLeft_add_eq_or_of_lt l.isLt, Nat.shiftLeft_eq, Nat.mul_comm]

/-- The loader on a stream of two bytes or more, in the stream's own numbers. -/
theorem loadStream_some (m : Memory) (h l : Byte) (payload : List Byte) : loadStream m (some (h :: l :: payload)) =
    if 65536 < 256 * h.toNat + l.toNat + payload.length / 2 then .error .overflow
    else .ok (writeWords m (wordOfBytes h l) (imageWords payload)) := by
  rw [loadStream, loadImage, wordOfBytes_toNat, length_imageWords]

/-- Whether and why an image does not load does not depend on memory. -/
theorem loadStream_cases (m : Memory) (image : Option (List Byte)) :
    (ImageFits image ∧ imageResult image = none ∧ ∃ m', loadStream m image = .ok m') ∨
    (¬ ImageFits image ∧ ∃ e, imageResult image = some e ∧ loadStream m image = .error e) := by
  match image with
  | none => exact .inr ⟨fun ⟨h, l, payload, e, _⟩ => (nomatch e), .unreadable, rfl, rfl⟩
  | some [] => exact .inr ⟨fun ⟨h, l, payload, e, _⟩ => (nomatch e), .malformed, rfl, rfl⟩
  | some [_] => exact .inr ⟨fun ⟨h, l, payload, e, _⟩ => (nomatch e), .malformed, rfl, rfl⟩
  | some (h :: l :: payload) =>
    rw [imageResult, loadStream_some, loadStream_some]
    by_cases hover : 65536 < 256 * h.toNat + l.toNat + payload.length / 2
    · rw [if_pos hover, if_pos hover]
      refine .inr ⟨?_, .overflow, rfl, rfl⟩
      rintro ⟨h', l', payload', e, hfit⟩
      cases e
      omega
    · rw [if_neg hover, if_neg hover]
      exact .inl ⟨⟨h, l, payload, rfl, Nat.le_of_not_lt hover⟩, rfl, _, rfl⟩

/-- The results of images in a row are their own results, whatever memory they find. -/
theorem loadAll_results (m : Memory) (images : List (Option (List Byte))) :
    (loadAll m images).2 = images.map imageResult := by
  induction images generalizing m with
  | nil => rfl
  | cons image rest ih =>
    rcases loadStream_cases m image with ⟨-, hr, m', hm⟩ | ⟨-, e, hr, hm⟩
    · rw [loadAll_cons_ok _ hm, List.map_cons, ih, hr]
    · rw [loadAll_cons_error _ hm, List.map_cons, ih, hr]

theorem imageResult_eq_none_iff (image : Option (List Byte)) : imageResult image = none ↔ ImageFits image := by
  rcases loadStream_cases [] image with ⟨hfit, hr, -⟩ | ⟨hfit, e, hr, -⟩
  · exact iff_of_true hr hfit
  · exact iff_of_false (by rw [hr]; exact Option.some_ne_none e) hfit

/-- The start: with every image loaded, from the construction with their memory; otherwise not. -/
theorem boot_cases (g : Vector Word 8) (c : Word) (i : List Arrival) (e : Option Byte) (k : Option Nat)
    (images : List (Option (List Byte))) :
    ((∀ image ∈ images, ImageFits image) ∧
      boot g c i e k images = .ok ((State.construct g c i e k).setMem (loadAll [] images).1)) ∨
    ((¬ ∀ image ∈ images, ImageFits image) ∧ boot g c i e k images = .error (loadAll [] images).2) := by
  have hboot : boot g c i e k images = if (loadAll [] images).2.all Option.isNone
    then .ok ((State.construct g c i e k).setMem (loadAll [] images).1) else .error (loadAll [] images).2 := rfl
  have hall : (loadAll [] images).2.all Option.isNone = true ↔ ∀ image ∈ images, ImageFits image := by
    simp only [loadAll_results, List.all_map, List.all_eq_true, Function.comp_apply, Option.isNone_iff_eq_none,
      imageResult_eq_none_iff]
  rw [hboot]
  by_cases hfit : ∀ image ∈ images, ImageFits image
  · exact .inl ⟨hfit, if_pos (hall.mpr hfit)⟩
  · exact .inr ⟨hfit, if_neg (mt hall.mp hfit)⟩

/-- Settles O59: the two ends of `boot_cases`, and the results that do not depend on memory (`loadAll_results`). -/
theorem bootNeedsEveryImage : Obligations.BootNeedsEveryImage := by
  unfold Obligations.BootNeedsEveryImage
  intro g c i e k images
  rcases boot_cases g c i e k images with ⟨hfit, h⟩ | ⟨hfit, h⟩ <;> rw [h]
  · exact ⟨iff_of_true ⟨_, rfl⟩ hfit, fun t ht => (by cases ht; rfl), fun rs hrs => (by cases hrs)⟩
  · refine ⟨iff_of_false (fun ⟨t, ht⟩ => by cases ht) hfit, fun t ht => (by cases ht), fun rs hrs => ?_⟩
    cases hrs
    exact ⟨rfl, loadAll_results [] images⟩

end Sys2Proof.Machine
end
